-- ==== Sys2Proof/Word.lean ====
section
/-!
DEFINITION. The word types of the Custom-CPU core (spec/00_scope.md R6, spec/10_state.md R20,
spec/30_encoding.md R61) and their plainest readings as numbers (spec/00_scope.md R9).
-/

namespace Sys2Proof

/-- One byte of the instruction stream (spec/20_memory.md R41). -/
abbrev Byte := BitVec 8

/-- A register value, a data cell and an instruction word: `XLEN = ILEN = CELL_BITS = 32`
(spec/00_scope.md R6). -/
abbrev Word := BitVec 32

/-- A register index: `NREGS = 32`, r0 to r31 (spec/10_state.md R20). -/
abbrev Reg := Fin 32

/-- `u32(v) = v mod 2^32` on the natural numbers (spec/00_scope.md R9). -/
abbrev u32 (v : Nat) : Word := BitVec.ofNat 32 v

/-- `u32(v) = v mod 2^32` on the integers, for the rules that negate (spec/00_scope.md R9). -/
abbrev u32OfInt (v : Int) : Word := BitVec.ofInt 32 v

end Sys2Proof
end

