-- ==== Sys2Proof/Config.lean ====
section
/-!
DEFINITION. The names and parameters of an implementation: mnemonics, shapes, operation classes, the
mode parameters of spec/00_scope.md R6, the opcode map (spec/30_encoding.md R70, R71) and the launch
configuration (spec/10_state.md R32). Their default values stand in Decode.lean (the opcode bytes) and
in Machine/Defaults.lean (everything else).
-/

namespace Sys2Proof

/-- The 41 instruction names, in the order of spec/opcode_table.json (spec/30_encoding.md R70). -/
inductive Mnemonic where
  | add | mul | mulh | div | rem | slt | slts | seqz
  | and | or | xor | not | sll | srl | sra | addi
  | slti | sltsi | lui | lli | andi | ori | xori | slli
  | srli | srai | lb | lh | lw | sb | sh | sw
  | beq | bneq | blt | ble | blts | bltes | jalr | jal
  | j
deriving DecidableEq, Repr

/-- Every mnemonic once, in the order of the table. -/
def Mnemonic.all : List Mnemonic :=
  [.add, .mul, .mulh, .div, .rem, .slt, .slts, .seqz, .and,
   .or, .xor, .not, .sll, .srl, .sra, .addi, .slti, .sltsi,
   .lui, .lli, .andi, .ori, .xori, .slli, .srli, .srai, .lb,
   .lh, .lw, .sb, .sh, .sw, .beq, .bneq, .blt, .ble,
   .blts, .bltes, .jalr, .jal, .j]

/-- The mnemonic's row number in spec/opcode_table.json, from 0. -/
def Mnemonic.index (op : Mnemonic) : Fin 41 :=
  ⟨op.ctorIdx, by cases op <;> decide⟩

/-- The five operand shapes (spec/00_scope.md R13, spec/30_encoding.md R61). -/
inductive Shape where
  | dss | dsi | ds | di | i
deriving DecidableEq, Repr

/-- The four operation classes (spec/30_encoding.md R64, R65). -/
inductive OpClass where
  | arithmetic | logic | loadStore | branching
deriving DecidableEq, Repr

/-- `MULH_MODE` (spec/41_alu_register.md R123). -/
inductive MulhMode where
  | shiftIntoHigh | highHalf
deriving DecidableEq, Repr

/-- `SRA_MODE` (spec/41_alu_register.md R132). -/
inductive SraMode where
  | magnitude | floor
deriving DecidableEq, Repr

/-- `BLTES_MODE` (spec/44_control_transfer.md R196). -/
inductive BltesMode where
  | strict | lessEqual
deriving DecidableEq, Repr

/-- A sparse memory: the listed addresses with their contents. An address that is not listed holds 0.
`Memory 8` is `List Host.Cell`. The canonical form is `Memory.wf` in Machine/Memory.lean. -/
abbrev Memory (width : Nat) := List (Nat × BitVec width)

/-- `OPCODE_MAP` (spec/30_encoding.md R70, R71): one byte for each mnemonic, at the mnemonic's row
number. `extensions` holds the opcode bytes an extended map assigns, with their shapes, to
instructions that have no executor (spec/40_execution_kernel.md R106); the default map has none. -/
structure OpcodeMap where
  bytes : Vector Byte 41
  extensions : List (Byte × Shape)
deriving DecidableEq, Repr

/-- The opcode byte the map gives to a mnemonic. -/
def OpcodeMap.byteOf (m : OpcodeMap) (op : Mnemonic) : Byte :=
  m.bytes[op.index]

/-- The configuration, fixed for a run: spec/10_state.md R32 and spec/00_scope.md R6.
`imem` and `imemLen` are `IMEM` and `IMEM_LEN`; `memInit` is `MEM_INIT`; `maxSteps` is `MAX_STEPS`. -/
structure Config where
  opcodeMap : OpcodeMap
  memSize : Nat
  mulhMode : MulhMode
  sraMode : SraMode
  bltesMode : BltesMode
  jalrLinkFirst : Bool
  maxSteps : Option Nat
  imem : Memory 8
  imemLen : Nat
  memInit : Memory 32
deriving DecidableEq, Repr

end Sys2Proof
end

