-- ==== Sys2Proof/Machine/Memory.lean ====
section
/-!
DEFINITION. Sparse memories in one canonical form. The data memory (cells of 32 bits,
spec/20_memory.md R44) and the instruction stream (bytes, R41) are both held so. An address that is not
listed holds 0: for the data memory that is the default `MEM_INIT` (spec/10_state.md R33, decision D6);
for the instruction stream the launch gives every byte, so it is only the way zero bytes are written down.
-/

namespace Sys2Proof

/-- The contents of one address. -/
def Memory.read {n : Nat} : Memory n → Nat → BitVec n
  | [], _ => 0#n
  | (k, v) :: rest, a => if k = a then v else Memory.read rest a

/-- The memory with `v` at address `a` and every other address as before. Writing 0 removes the entry,
so that equal memories stay equal lists. -/
def Memory.write {n : Nat} : Memory n → Nat → BitVec n → Memory n
  | [], a, v => if v = 0#n then [] else [(a, v)]
  | (k, x) :: rest, a, v =>
    if a < k then (if v = 0#n then (k, x) :: rest else (a, v) :: (k, x) :: rest)
    else if a = k then (if v = 0#n then rest else (a, v) :: rest)
    else (k, x) :: Memory.write rest a v

/-- The entries' addresses rise strictly from `lo` on, and no entry is 0. -/
def Memory.risingFrom {n : Nat} (lo : Nat) : Memory n → Bool
  | [] => true
  | (k, v) :: rest => decide (lo ≤ k) && decide (v ≠ 0#n) && Memory.risingFrom (k + 1) rest

/-- The canonical form: addresses strictly rising, no entry equal to what an unlisted address holds. -/
def Memory.wf {n : Nat} (m : Memory n) : Bool :=
  Memory.risingFrom 0 m

/-- Every listed address is below `size`. -/
def Memory.within {n : Nat} (size : Nat) (m : Memory n) : Bool :=
  m.all fun cell => decide (cell.1 < size)

/-- The memory that holds the listed values from address `a` on, over `m`. -/
def Memory.writeList {n : Nat} (m : Memory n) (a : Nat) : List (BitVec n) → Memory n
  | [] => m
  | v :: rest => Memory.writeList (Memory.write m a v) (a + 1) rest

end Sys2Proof
end

