-- ==== Sys2Proof/Syntax.lean ====
section
/-!
DEFINITION. The instruction set: one constructor for each row of spec/opcode_table.json, its operands
in field order f1, f2, f3 under the names of spec/30_encoding.md R62, and the undivided form of an
instruction (mnemonic and field values) that the decoder cuts out of a word.
-/

namespace Sys2Proof

/-- An instruction with its operands in field order (spec/30_encoding.md R62). A register operand is an
index 0 to 31, so every term is an instruction that R69 admits. `rs2` of a store is the value stored;
`rs1` and `rs2` of a branch are its left and right operand; NOT's `rs2` is decoded and not used. -/
inductive Instr where
  /-- ADD (R121), shape DSS. -/
  | add (rd rs1 rs2 : Reg)
  /-- MUL (R122), shape DSS. -/
  | mul (rd rs1 rs2 : Reg)
  /-- MULH (R123), shape DSS. -/
  | mulh (rd rs1 rs2 : Reg)
  /-- DIV (R124), shape DSS. -/
  | div (rd rs1 rs2 : Reg)
  /-- REM (R125), shape DSS. -/
  | rem (rd rs1 rs2 : Reg)
  /-- SLT (R133), shape DSS. -/
  | slt (rd rs1 rs2 : Reg)
  /-- SLTS (R134), shape DSS. -/
  | slts (rd rs1 rs2 : Reg)
  /-- SEQZ (R135), shape DS. -/
  | seqz (rd rs1 : Reg)
  /-- AND (R126), shape DSS. -/
  | and (rd rs1 rs2 : Reg)
  /-- OR (R127), shape DSS. -/
  | or (rd rs1 rs2 : Reg)
  /-- XOR (R128), shape DSS. -/
  | xor (rd rs1 rs2 : Reg)
  /-- NOT (R129), shape DSS. -/
  | not (rd rs1 rs2 : Reg)
  /-- SLL (R130), shape DSS. -/
  | sll (rd rs1 rs2 : Reg)
  /-- SRL (R131), shape DSS. -/
  | srl (rd rs1 rs2 : Reg)
  /-- SRA (R132), shape DSS. -/
  | sra (rd rs1 rs2 : Reg)
  /-- ADDI (R151), shape DSI. -/
  | addi (rd rs1 : Reg) (imm : BitVec 8)
  /-- SLTI (R158), shape DSI. -/
  | slti (rd rs1 : Reg) (imm : BitVec 8)
  /-- SLTSI (R159), shape DSI. -/
  | sltsi (rd rs1 : Reg) (imm : BitVec 8)
  /-- LUI (R160), shape DI. -/
  | lui (rd : Reg) (imm : BitVec 16)
  /-- LLI (R161), shape DI. -/
  | lli (rd : Reg) (imm : BitVec 16)
  /-- ANDI (R152), shape DSI. -/
  | andi (rd rs1 : Reg) (imm : BitVec 8)
  /-- ORI (R153), shape DSI. -/
  | ori (rd rs1 : Reg) (imm : BitVec 8)
  /-- XORI (R154), shape DSI. -/
  | xori (rd rs1 : Reg) (imm : BitVec 8)
  /-- SLLI (R155), shape DSI. -/
  | slli (rd rs1 : Reg) (imm : BitVec 8)
  /-- SRLI (R156), shape DSI. -/
  | srli (rd rs1 : Reg) (imm : BitVec 8)
  /-- SRAI (R157), shape DSI. -/
  | srai (rd rs1 : Reg) (imm : BitVec 8)
  /-- LB (R172), shape DSI. -/
  | lb (rd rs1 : Reg) (imm : BitVec 8)
  /-- LH (R173), shape DSI. -/
  | lh (rd rs1 : Reg) (imm : BitVec 8)
  /-- LW (R174), shape DSI. -/
  | lw (rd rs1 : Reg) (imm : BitVec 8)
  /-- SB (R175), shape DSI. -/
  | sb (rs2 rs1 : Reg) (imm : BitVec 8)
  /-- SH (R176), shape DSI. -/
  | sh (rs2 rs1 : Reg) (imm : BitVec 8)
  /-- SW (R177), shape DSI. -/
  | sw (rs2 rs1 : Reg) (imm : BitVec 8)
  /-- BEQ (R191), shape DSI. -/
  | beq (rs1 rs2 : Reg) (imm : BitVec 8)
  /-- BNEQ (R192), shape DSI. -/
  | bneq (rs1 rs2 : Reg) (imm : BitVec 8)
  /-- BLT (R193), shape DSI. -/
  | blt (rs1 rs2 : Reg) (imm : BitVec 8)
  /-- BLE (R194), shape DSI. -/
  | ble (rs1 rs2 : Reg) (imm : BitVec 8)
  /-- BLTS (R195), shape DSI. -/
  | blts (rs1 rs2 : Reg) (imm : BitVec 8)
  /-- BLTES (R196), shape DSI. -/
  | bltes (rs1 rs2 : Reg) (imm : BitVec 8)
  /-- JALR (R197), shape DSI. -/
  | jalr (rd rs1 : Reg) (imm : BitVec 8)
  /-- JAL (R198), shape DI. -/
  | jal (rd : Reg) (imm : BitVec 16)
  /-- J (R199), shape I. -/
  | j (imm : BitVec 24)
deriving DecidableEq, Repr

/-- The mnemonic of an instruction. -/
def Instr.mnemonic : Instr → Mnemonic
  | .add .. => .add
  | .mul .. => .mul
  | .mulh .. => .mulh
  | .div .. => .div
  | .rem .. => .rem
  | .slt .. => .slt
  | .slts .. => .slts
  | .seqz .. => .seqz
  | .and .. => .and
  | .or .. => .or
  | .xor .. => .xor
  | .not .. => .not
  | .sll .. => .sll
  | .srl .. => .srl
  | .sra .. => .sra
  | .addi .. => .addi
  | .slti .. => .slti
  | .sltsi .. => .sltsi
  | .lui .. => .lui
  | .lli .. => .lli
  | .andi .. => .andi
  | .ori .. => .ori
  | .xori .. => .xori
  | .slli .. => .slli
  | .srli .. => .srli
  | .srai .. => .srai
  | .lb .. => .lb
  | .lh .. => .lh
  | .lw .. => .lw
  | .sb .. => .sb
  | .sh .. => .sh
  | .sw .. => .sw
  | .beq .. => .beq
  | .bneq .. => .bneq
  | .blt .. => .blt
  | .ble .. => .ble
  | .blts .. => .blts
  | .bltes .. => .bltes
  | .jalr .. => .jalr
  | .jal .. => .jal
  | .j .. => .j

/-- The shape of a mnemonic (spec/30_encoding.md R70). Shapes go with the mnemonic, not the byte (R71). -/
def Mnemonic.shape : Mnemonic → Shape
  | .add => .dss
  | .mul => .dss
  | .mulh => .dss
  | .div => .dss
  | .rem => .dss
  | .slt => .dss
  | .slts => .dss
  | .seqz => .ds
  | .and => .dss
  | .or => .dss
  | .xor => .dss
  | .not => .dss
  | .sll => .dss
  | .srl => .dss
  | .sra => .dss
  | .addi => .dsi
  | .slti => .dsi
  | .sltsi => .dsi
  | .lui => .di
  | .lli => .di
  | .andi => .dsi
  | .ori => .dsi
  | .xori => .dsi
  | .slli => .dsi
  | .srli => .dsi
  | .srai => .dsi
  | .lb => .dsi
  | .lh => .dsi
  | .lw => .dsi
  | .sb => .dsi
  | .sh => .dsi
  | .sw => .dsi
  | .beq => .dsi
  | .bneq => .dsi
  | .blt => .dsi
  | .ble => .dsi
  | .blts => .dsi
  | .bltes => .dsi
  | .jalr => .dsi
  | .jal => .di
  | .j => .i

/-- What decoding a word gives before its register fields are known to be legal (spec/30_encoding.md
R68): the mnemonic and the values of f1, f2 and f3. A field the shape lacks is 0. -/
structure RawInstr where
  op : Mnemonic
  f1 : Nat
  f2 : Nat
  f3 : Nat
deriving DecidableEq, Repr

end Sys2Proof
end

