-- ==== Sys2Proof/WellFormed.lean ====
section
/-!
DEFINITION. The checks: field widths and register fields of an instruction (spec/30_encoding.md R61, R63,
R69), the constraints on an opcode map (R65, R71), and what a launch must supply (spec/20_memory.md R41,
spec/70_reset_and_hazards.md R232).
-/

namespace Sys2Proof

/-- `shapeFieldWidths` (spec/30_encoding.md R63): the widths of f1, f2 and f3, 0 for an absent field. -/
def Shape.fieldWidths : Shape → Nat × Nat × Nat
  | .dss => (8, 8, 8)
  | .dsi => (8, 8, 8)
  | .ds => (8, 16, 0)
  | .di => (8, 16, 0)
  | .i => (24, 0, 0)

/-- Which of f1, f2 and f3 are register fields (spec/30_encoding.md R68). -/
def Shape.registerFields : Shape → Bool × Bool × Bool
  | .dss => (true, true, true)
  | .dsi => (true, true, false)
  | .ds => (true, true, false)
  | .di => (true, false, false)
  | .i => (false, false, false)

/-- Each field fits its width; an absent field, of width 0, is 0 (spec/30_encoding.md R61, R63). -/
def RawInstr.fieldsFit (r : RawInstr) : Bool :=
  let (w1, w2, w3) := r.op.shape.fieldWidths
  decide (r.f1 < 2 ^ w1) && decide (r.f2 < 2 ^ w2) && decide (r.f3 < 2 ^ w3)

/-- Each register field is below 32, used or not (spec/30_encoding.md R69). -/
def RawInstr.registersLegal (r : RawInstr) : Bool :=
  let (r1, r2, r3) := r.op.shape.registerFields
  (!r1 || decide (r.f1 < 32)) && (!r2 || decide (r.f2 < 32)) && (!r3 || decide (r.f3 < 32))

/-- A mnemonic with field values that some word spells. -/
def RawInstr.wellFormed (r : RawInstr) : Bool :=
  r.fieldsFit && r.registersLegal

/-- The operation class of a mnemonic (spec/30_encoding.md R70, column "class"). -/
def Mnemonic.opClass : Mnemonic → OpClass
  | .add => .arithmetic
  | .mul => .arithmetic
  | .mulh => .arithmetic
  | .div => .arithmetic
  | .rem => .arithmetic
  | .slt => .arithmetic
  | .slts => .arithmetic
  | .seqz => .arithmetic
  | .and => .logic
  | .or => .logic
  | .xor => .logic
  | .not => .logic
  | .sll => .logic
  | .srl => .logic
  | .sra => .logic
  | .addi => .arithmetic
  | .slti => .arithmetic
  | .sltsi => .arithmetic
  | .lui => .arithmetic
  | .lli => .arithmetic
  | .andi => .logic
  | .ori => .logic
  | .xori => .logic
  | .slli => .logic
  | .srli => .logic
  | .srai => .logic
  | .lb => .loadStore
  | .lh => .loadStore
  | .lw => .loadStore
  | .sb => .loadStore
  | .sh => .loadStore
  | .sw => .loadStore
  | .beq => .branching
  | .bneq => .branching
  | .blt => .branching
  | .ble => .branching
  | .blts => .branching
  | .bltes => .branching
  | .jalr => .branching
  | .jal => .branching
  | .j => .branching

/-- The class code `CLS` (spec/30_encoding.md R65). -/
def OpClass.code : OpClass → BitVec 2
  | .arithmetic => 0b00
  | .logic => 0b01
  | .loadStore => 0b10
  | .branching => 0b11

/-- The shapes whose opcode bytes have the immediate bit set (spec/30_encoding.md R64, R71 (c)). -/
def Shape.usesImmediate : Shape → Bool
  | .dss => false
  | .ds => false
  | .dsi => true
  | .di => true
  | .i => true

/-- R71 (a): no two mnemonics have the same byte. -/
def OpcodeMap.injective (m : OpcodeMap) : Bool :=
  decide (Mnemonic.all.map m.byteOf).Nodup

/-- R71 (b): ADD maps to 0x01. -/
def OpcodeMap.addIsOne (m : OpcodeMap) : Bool :=
  decide (m.byteOf .add = 0x01)

/-- R71 (c): `b[7] = 1` exactly for the DSI, DI and I instructions, those of an extended map too. -/
def OpcodeMap.immediateBits (m : OpcodeMap) : Bool :=
  (Mnemonic.all.all fun op => decide ((m.byteOf op).getLsbD 7 = op.shape.usesImmediate)) &&
    m.extensions.all fun e => decide (e.1.getLsbD 7 = e.2.usesImmediate)

/-- R71 (d): `b[6:5]` is the class code. -/
def OpcodeMap.classBits (m : OpcodeMap) : Bool :=
  Mnemonic.all.all fun op => decide ((m.byteOf op).extractLsb' 5 2 = op.opClass.code)

/-- The bytes an extended map adds (spec/40_execution_kernel.md R106) are bytes no mnemonic has, each
assigned once. Every byte that is neither is unassigned (R71 (e)): see `OpcodeMap.slot`. DEDUCED (log entry
3): an extended map may be launched; the default map adds nothing. -/
def OpcodeMap.extensionsFresh (m : OpcodeMap) : Bool :=
  decide (m.extensions.map Prod.fst).Nodup &&
    m.extensions.all fun e => Mnemonic.all.all fun op => decide (m.byteOf op ≠ e.1)

/-- The constraints of spec/30_encoding.md R71 on `OPCODE_MAP`. -/
def OpcodeMap.wellFormed (m : OpcodeMap) : Bool :=
  m.injective && m.addIsOne && m.immediateBits && m.classBits && m.extensionsFresh

/-- `IMEM_LEN` is a multiple of 4 and at most 2^24 (spec/20_memory.md R41). -/
def Config.streamLengthLegal (cfg : Config) : Bool :=
  decide (cfg.imemLen % 4 = 0) && decide (cfg.imemLen ≤ 2 ^ 24)

/-- The stream is written down in canonical form and lists no byte outside `IMEM_LEN`. -/
def Config.streamCanonical (cfg : Config) : Bool :=
  Memory.wf cfg.imem && Memory.within cfg.imemLen cfg.imem

/-- `MEM_INIT` is written down in canonical form and lists no cell outside `MEM_SIZE`. -/
def Config.memInitCanonical (cfg : Config) : Bool :=
  Memory.wf cfg.memInit && Memory.within cfg.memSize cfg.memInit

/-- What the host may launch (spec/70_reset_and_hazards.md R232, spec/30_encoding.md R71). -/
def Config.wellFormed (cfg : Config) : Bool :=
  cfg.opcodeMap.wellFormed && cfg.streamLengthLegal && cfg.streamCanonical && cfg.memInitCanonical

end Sys2Proof
end

