-- ==== Sys2Proof/Decode.lean ====
section
/-!
DEFINITION. The default opcode map, the classifier, the decoder and, after it, the encoder
(spec/30_encoding.md R60 to R76, spec/20_memory.md R42, R43). Decoding is total: every list of bytes gives
an instruction or a rejection by name.
-/

namespace Sys2Proof

/-! ### The opcode map -/

/-- The default opcode bytes (spec/30_encoding.md R70). Only ADD's byte is in the source; the others are
the spec's own assignment (decision D1). -/
def Mnemonic.defaultByte : Mnemonic → Byte
  | .add => 0x01
  | .mul => 0x02
  | .mulh => 0x03
  | .div => 0x04
  | .rem => 0x05
  | .slt => 0x09
  | .slts => 0x0A
  | .seqz => 0x0B
  | .and => 0x21
  | .or => 0x22
  | .xor => 0x23
  | .not => 0x24
  | .sll => 0x29
  | .srl => 0x2A
  | .sra => 0x2B
  | .addi => 0x81
  | .slti => 0x89
  | .sltsi => 0x8A
  | .lui => 0x91
  | .lli => 0x92
  | .andi => 0xA1
  | .ori => 0xA2
  | .xori => 0xA3
  | .slli => 0xA9
  | .srli => 0xAA
  | .srai => 0xAB
  | .lb => 0xC1
  | .lh => 0xC2
  | .lw => 0xC3
  | .sb => 0xC9
  | .sh => 0xCA
  | .sw => 0xCB
  | .beq => 0xE1
  | .bneq => 0xE2
  | .blt => 0xE3
  | .ble => 0xE4
  | .blts => 0xE5
  | .bltes => 0xE6
  | .jalr => 0xE9
  | .jal => 0xEA
  | .j => 0xEB

/-- The default `OPCODE_MAP` (spec/30_encoding.md R70), with no extension. -/
def OpcodeMap.default : OpcodeMap where
  bytes := ⟨(Mnemonic.all.map Mnemonic.defaultByte).toArray, rfl⟩
  extensions := []

/-- What an opcode byte is assigned to: nothing, one of the 41 instructions, or an instruction of an
extended map that has no executor (spec/30_encoding.md R66, spec/40_execution_kernel.md R106). -/
inductive OpcodeSlot where
  | unassigned
  | core (op : Mnemonic)
  | extension (sh : Shape)
deriving DecidableEq, Repr

/-- The 256-entry lookup of an opcode byte (spec/30_encoding.md R66). -/
def OpcodeMap.slot (m : OpcodeMap) (b : Byte) : OpcodeSlot :=
  match Mnemonic.all.find? fun op => m.byteOf op == b with
  | some op => .core op
  | none =>
    match m.extensions.find? fun e => e.1 == b with
    | some e => .extension e.2
    | none => .unassigned

/-- The shape classifier (spec/30_encoding.md R66, spec/90_conflicts.md C3): `none` is its answer
"unknown opcode". -/
def OpcodeMap.classify (m : OpcodeMap) (b : Byte) : Option Shape :=
  match m.slot b with
  | .core op => some op.shape
  | .extension sh => some sh
  | .unassigned => none

/-! ### The fields of a word (spec/30_encoding.md R61), each cut from the whole word (spec/20_memory.md R43) -/

/-- `w[31:24]`, the opcode byte. -/
def opcodeByte (w : Word) : Byte := w.extractLsb' 24 8

/-- `w[23:16]`, f1 of every shape but I. -/
def field23to16 (w : Word) : BitVec 8 := w.extractLsb' 16 8

/-- `w[15:8]`, f2 of DSS and DSI. -/
def field15to8 (w : Word) : BitVec 8 := w.extractLsb' 8 8

/-- `w[7:0]`, f3 of DSS and DSI. -/
def field7to0 (w : Word) : BitVec 8 := w.extractLsb' 0 8

/-- `w[15:0]`, f2 of DS and DI. -/
def field15to0 (w : Word) : BitVec 16 := w.extractLsb' 0 16

/-- `w[23:0]`, f1 of I. -/
def field23to0 (w : Word) : BitVec 24 := w.extractLsb' 0 24

/-! ### Decoding -/

/-- Why bytes spell no instruction of this core. -/
inductive DecodeError where
  /-- Fewer than four bytes: no whole word (spec/30_encoding.md R60). -/
  | truncatedWord
  /-- The opcode byte is unassigned (spec/30_encoding.md R74). -/
  | illegalOpcode (b : Byte)
  /-- Register field `k` holds `value`, 32 or more (spec/30_encoding.md R69). -/
  | illegalRegister (k value : Nat)
  /-- The opcode byte is assigned by an extended map and has no executor (spec/40_execution_kernel.md R106). -/
  | unimplemented (b : Byte)
deriving DecidableEq, Repr

/-- Register field number `k` with value `v`: legal below 32 (spec/30_encoding.md R69). -/
def regField (k v : Nat) : Except DecodeError Reg :=
  if h : v < 32 then .ok ⟨v, h⟩ else .error (.illegalRegister k v)

/-- DSS: f1, f2 and f3 are registers, checked in that order (spec/30_encoding.md R68). -/
def dssFields {α : Type} (w : Word) (make : Reg → Reg → Reg → α) : Except DecodeError α := do
  let r1 ← regField 1 (field23to16 w).toNat
  let r2 ← regField 2 (field15to8 w).toNat
  let r3 ← regField 3 (field7to0 w).toNat
  return make r1 r2 r3

/-- DSI: f1 and f2 are registers, f3 is imm8 (spec/30_encoding.md R68). -/
def dsiFields {α : Type} (w : Word) (make : Reg → Reg → BitVec 8 → α) : Except DecodeError α := do
  let r1 ← regField 1 (field23to16 w).toNat
  let r2 ← regField 2 (field15to8 w).toNat
  return make r1 r2 (field7to0 w)

/-- DS: f1 and the 16-bit f2 are registers (spec/30_encoding.md R68). -/
def dsFields {α : Type} (w : Word) (make : Reg → Reg → α) : Except DecodeError α := do
  let r1 ← regField 1 (field23to16 w).toNat
  let r2 ← regField 2 (field15to0 w).toNat
  return make r1 r2

/-- DI: f1 is a register, f2 is imm16 (spec/30_encoding.md R68). -/
def diFields {α : Type} (w : Word) (make : Reg → BitVec 16 → α) : Except DecodeError α := do
  let r1 ← regField 1 (field23to16 w).toNat
  return make r1 (field15to0 w)

/-- I: f1 is imm24 and there is no register field (spec/30_encoding.md R68). -/
def iFields {α : Type} (w : Word) (make : BitVec 24 → α) : Except DecodeError α :=
  .ok (make (field23to0 w))

/-- The operands of a word whose opcode byte is `op`'s (spec/30_encoding.md R62, R68). -/
def decodeOperands (w : Word) : Mnemonic → Except DecodeError Instr
  | .add => dssFields w .add
  | .mul => dssFields w .mul
  | .mulh => dssFields w .mulh
  | .div => dssFields w .div
  | .rem => dssFields w .rem
  | .slt => dssFields w .slt
  | .slts => dssFields w .slts
  | .seqz => dsFields w .seqz
  | .and => dssFields w .and
  | .or => dssFields w .or
  | .xor => dssFields w .xor
  | .not => dssFields w .not
  | .sll => dssFields w .sll
  | .srl => dssFields w .srl
  | .sra => dssFields w .sra
  | .addi => dsiFields w .addi
  | .slti => dsiFields w .slti
  | .sltsi => dsiFields w .sltsi
  | .lui => diFields w .lui
  | .lli => diFields w .lli
  | .andi => dsiFields w .andi
  | .ori => dsiFields w .ori
  | .xori => dsiFields w .xori
  | .slli => dsiFields w .slli
  | .srli => dsiFields w .srli
  | .srai => dsiFields w .srai
  | .lb => dsiFields w .lb
  | .lh => dsiFields w .lh
  | .lw => dsiFields w .lw
  | .sb => dsiFields w .sb
  | .sh => dsiFields w .sh
  | .sw => dsiFields w .sw
  | .beq => dsiFields w .beq
  | .bneq => dsiFields w .bneq
  | .blt => dsiFields w .blt
  | .ble => dsiFields w .ble
  | .blts => dsiFields w .blts
  | .bltes => dsiFields w .bltes
  | .jalr => dsiFields w .jalr
  | .jal => diFields w .jal
  | .j => iFields w .j

/-- The register checks of a word of the given shape, for an instruction this core does not have. -/
def checkFields (w : Word) : Shape → Except DecodeError Unit
  | .dss => dssFields w fun _ _ _ => ()
  | .dsi => dsiFields w fun _ _ _ => ()
  | .ds => dsFields w fun _ _ => ()
  | .di => diFields w fun _ _ => ()
  | .i => iFields w fun _ => ()

/-- `decode(w)` (spec/30_encoding.md R68), with the order of rejections of spec/60_exceptions.md R213:
illegal opcode, illegal register, unimplemented. -/
def decode (m : OpcodeMap) (w : Word) : Except DecodeError Instr :=
  match m.slot (opcodeByte w) with
  | .unassigned => .error (.illegalOpcode (opcodeByte w))
  | .core op => decodeOperands w op
  | .extension sh => do
    checkFields w sh
    .error (.unimplemented (opcodeByte w))

/-- The word of four bytes in stream order: the byte at the lowest offset is the most significant
(spec/20_memory.md R42). -/
def wordOfBytes (b0 b1 b2 b3 : Byte) : Word :=
  b0 ++ b1 ++ b2 ++ b3

/-- The instruction at the head of a list of bytes, and the bytes after it (spec/30_encoding.md R60). -/
def decodeBytes (m : OpcodeMap) : List Byte → Except DecodeError (Instr × List Byte)
  | b0 :: b1 :: b2 :: b3 :: rest => do
    let i ← decode m (wordOfBytes b0 b1 b2 b3)
    return (i, rest)
  | _ => .error .truncatedWord

/-! ### Encoding -/

/-- The mnemonic and field values of an instruction (spec/30_encoding.md R62): which operand stands in
which field. -/
def Instr.raw : Instr → RawInstr
  | .add rd rs1 rs2 => ⟨.add, rd, rs1, rs2⟩
  | .mul rd rs1 rs2 => ⟨.mul, rd, rs1, rs2⟩
  | .mulh rd rs1 rs2 => ⟨.mulh, rd, rs1, rs2⟩
  | .div rd rs1 rs2 => ⟨.div, rd, rs1, rs2⟩
  | .rem rd rs1 rs2 => ⟨.rem, rd, rs1, rs2⟩
  | .slt rd rs1 rs2 => ⟨.slt, rd, rs1, rs2⟩
  | .slts rd rs1 rs2 => ⟨.slts, rd, rs1, rs2⟩
  | .seqz rd rs1 => ⟨.seqz, rd, rs1, 0⟩
  | .and rd rs1 rs2 => ⟨.and, rd, rs1, rs2⟩
  | .or rd rs1 rs2 => ⟨.or, rd, rs1, rs2⟩
  | .xor rd rs1 rs2 => ⟨.xor, rd, rs1, rs2⟩
  | .not rd rs1 rs2 => ⟨.not, rd, rs1, rs2⟩
  | .sll rd rs1 rs2 => ⟨.sll, rd, rs1, rs2⟩
  | .srl rd rs1 rs2 => ⟨.srl, rd, rs1, rs2⟩
  | .sra rd rs1 rs2 => ⟨.sra, rd, rs1, rs2⟩
  | .addi rd rs1 imm => ⟨.addi, rd, rs1, imm.toNat⟩
  | .slti rd rs1 imm => ⟨.slti, rd, rs1, imm.toNat⟩
  | .sltsi rd rs1 imm => ⟨.sltsi, rd, rs1, imm.toNat⟩
  | .lui rd imm => ⟨.lui, rd, imm.toNat, 0⟩
  | .lli rd imm => ⟨.lli, rd, imm.toNat, 0⟩
  | .andi rd rs1 imm => ⟨.andi, rd, rs1, imm.toNat⟩
  | .ori rd rs1 imm => ⟨.ori, rd, rs1, imm.toNat⟩
  | .xori rd rs1 imm => ⟨.xori, rd, rs1, imm.toNat⟩
  | .slli rd rs1 imm => ⟨.slli, rd, rs1, imm.toNat⟩
  | .srli rd rs1 imm => ⟨.srli, rd, rs1, imm.toNat⟩
  | .srai rd rs1 imm => ⟨.srai, rd, rs1, imm.toNat⟩
  | .lb rd rs1 imm => ⟨.lb, rd, rs1, imm.toNat⟩
  | .lh rd rs1 imm => ⟨.lh, rd, rs1, imm.toNat⟩
  | .lw rd rs1 imm => ⟨.lw, rd, rs1, imm.toNat⟩
  | .sb rs2 rs1 imm => ⟨.sb, rs2, rs1, imm.toNat⟩
  | .sh rs2 rs1 imm => ⟨.sh, rs2, rs1, imm.toNat⟩
  | .sw rs2 rs1 imm => ⟨.sw, rs2, rs1, imm.toNat⟩
  | .beq rs1 rs2 imm => ⟨.beq, rs1, rs2, imm.toNat⟩
  | .bneq rs1 rs2 imm => ⟨.bneq, rs1, rs2, imm.toNat⟩
  | .blt rs1 rs2 imm => ⟨.blt, rs1, rs2, imm.toNat⟩
  | .ble rs1 rs2 imm => ⟨.ble, rs1, rs2, imm.toNat⟩
  | .blts rs1 rs2 imm => ⟨.blts, rs1, rs2, imm.toNat⟩
  | .bltes rs1 rs2 imm => ⟨.bltes, rs1, rs2, imm.toNat⟩
  | .jalr rd rs1 imm => ⟨.jalr, rd, rs1, imm.toNat⟩
  | .jal rd imm => ⟨.jal, rd, imm.toNat, 0⟩
  | .j imm => ⟨.j, imm.toNat, 0, 0⟩

/-- The check of spec/30_encoding.md R69 on an instruction. Its operands' types make it hold of every term
(Sys2Proof.Laws.wellFormed_of_types). -/
def Instr.wellFormed (i : Instr) : Bool :=
  i.raw.wellFormed

/-- The 24 bits below the opcode byte, each field masked to its width (spec/30_encoding.md R61, R90). -/
def RawInstr.fieldBits (r : RawInstr) : BitVec 24 :=
  match r.op.shape with
  | .dss => BitVec.ofNat 8 r.f1 ++ BitVec.ofNat 8 r.f2 ++ BitVec.ofNat 8 r.f3
  | .dsi => BitVec.ofNat 8 r.f1 ++ BitVec.ofNat 8 r.f2 ++ BitVec.ofNat 8 r.f3
  | .ds => BitVec.ofNat 8 r.f1 ++ BitVec.ofNat 16 r.f2
  | .di => BitVec.ofNat 8 r.f1 ++ BitVec.ofNat 16 r.f2
  | .i => BitVec.ofNat 24 r.f1

/-- The word that spells a mnemonic with field values: the opcode byte in bits 31 to 24
(spec/30_encoding.md R60, R61). -/
def encodeRaw (m : OpcodeMap) (r : RawInstr) : Word :=
  m.byteOf r.op ++ r.fieldBits

/-- The word of an instruction. -/
def encode (m : OpcodeMap) (i : Instr) : Word :=
  encodeRaw m i.raw

/-- The four bytes of a word in stream order, most significant first (spec/20_memory.md R42). -/
def bytesOfWord (w : Word) : List Byte :=
  [w.extractLsb' 24 8, w.extractLsb' 16 8, w.extractLsb' 8 8, w.extractLsb' 0 8]

/-- The four bytes of an instruction in stream order. -/
def encodeBytes (m : OpcodeMap) (i : Instr) : List Byte :=
  bytesOfWord (encode m i)

/-- The instruction read, under the default map, from the word whose bits are `w`, numbered as
spec/opcode_table.json numbers them, the bits above `nbits` being 0: the word is laid out as four bytes in
stream order and those are decoded. -/
def decodeTableWord (nbits w : Nat) : Option Instr :=
  match decodeBytes OpcodeMap.default (bytesOfWord (BitVec.ofNat 32 (w % 2 ^ nbits))) with
  | .ok (i, _) => some i
  | .error _ => none

end Sys2Proof
end

