-- ==== Sys2Proof/Machine/Defaults.lean ====
section
/-!
DEFINITION. The default configuration: the default values of spec/00_scope.md R6, with no instruction
stream loaded and no cap.
-/

namespace Sys2Proof

/-- The default parameters (spec/00_scope.md R6). DESIGN CHOICE (log entries 1 and 2, unsafe): no program
stands in the default launch, so `IMEM_LEN` is 0, and no cap is given. -/
def Config.default : Config where
  opcodeMap := OpcodeMap.default
  memSize := 256
  mulhMode := .shiftIntoHigh
  sraMode := .magnitude
  bltesMode := .strict
  jalrLinkFirst := true
  maxSteps := none
  imem := []
  imemLen := 0
  memInit := []

end Sys2Proof
end

