-- ==== Sys2Proof/Machine/State.lean ====
section
/-!
DEFINITION. The state of the core (spec/10_state.md), the state a reset leaves (R33) and the reasons for
which a step of the model can stop. A fault OF THE CORE (spec/60_exceptions.md R211) is no such reason: it
is a next state, with STATUS and the fault record written (`raiseFault` in Machine/Ops.lean).
-/

namespace Sys2Proof.Machine

/-- `STATUS` (spec/10_state.md R28). -/
inductive Status where
  | running | haltedEnd | haltedLimit | faulted
deriving DecidableEq, Repr

/-- `FAULT_CAUSE` (spec/10_state.md R29, spec/60_exceptions.md R211). -/
inductive FaultCause where
  | noFault | illegalOpcode | illegalRegister | divideByZero | memRange | misalignedFetch
  | unimplemented
deriving DecidableEq, Repr

/-- The state of the core. `cfg` is the configuration of spec/10_state.md R32, fixed for the run; the
other fields are the tuple at the head of spec/10_state.md, in its order. -/
structure State where
  /-- IMEM, IMEM_LEN, OPCODE_MAP, MEM_SIZE, the modes, MAX_STEPS and MEM_INIT (R32). -/
  cfg : Config
  /-- `x[0..31]` (R20). -/
  regs : Vector Word 32
  /-- The program counter, a natural number (R25). -/
  pc : Nat
  /-- `STATUS` (R28). -/
  status : Status
  /-- `FAULT_CAUSE` (R29). -/
  faultCause : FaultCause
  /-- `FAULT_PC` (R29). -/
  faultPc : Nat
  /-- `FAULT_INFO` (R29). -/
  faultInfo : Nat
  /-- `RETIRED`, the completed instructions (R30). -/
  retired : Nat
  /-- `DMEM` (spec/20_memory.md R44). -/
  dmem : Memory 32
deriving DecidableEq, Repr

/-- Why the model's step has no next state though the core's rules were applied. -/
inductive Fault where
  /-- Raised by `step` alone, in a state whose STATUS is not RUNNING: the core has no step there and the
  state is final (spec/40_execution_kernel.md R101). Safe. -/
  | stopped (status : Status)
deriving DecidableEq, Repr

/-- Why the model declines. -/
inductive Refusal where
  /-- An instruction without a meaning; no arm of `exec` raises it. Safe. -/
  | notModelled (mnemonic : String)
  /-- Raised by `launch`: the host may not launch this configuration (spec/20_memory.md R41,
  spec/30_encoding.md R71, spec/93_implementation_defined.md section 2). Safe. -/
  | illegalLaunch
  /-- Raised by `step`: the stream ends inside the word at the pc, which a stream of whole words never does
  (spec/20_memory.md R41, R42). No launched run meets it. Safe. -/
  | truncatedStream
deriving DecidableEq, Repr

/-- The state after reset with the given launch inputs (spec/10_state.md R33, spec/70_reset_and_hazards.md
R230, R231). -/
def State.ofConfig (cfg : Config) : State where
  cfg := cfg
  regs := Vector.replicate 32 0#32
  pc := 0
  status := .running
  faultCause := .noFault
  faultPc := 0
  faultInfo := 0
  retired := 0
  dmem := cfg.memInit

/-- The machine right after reset, in the default launch (spec/10_state.md R33). -/
def State.reset : State :=
  State.ofConfig Config.default

end Sys2Proof.Machine
end

