-- ==== Sys2Proof/Machine/Operands.lean ====
section
/-!
DEFINITION. The operand forms (spec/30_encoding.md R72, R73): a register by index and an immediate by
field, and the one addressing mode, register plus offset (spec/43_load_store.md R171).
-/

namespace Sys2Proof.Machine

/-- `zext_N(v)`: the field read as an unsigned number (spec/00_scope.md R10). -/
def zext {n : Nat} (v : BitVec n) : Nat :=
  v.toNat

/-- `sext_N(v)`: the sign-extended 32-bit pattern, as an unsigned value (spec/00_scope.md R10). -/
def sext {n : Nat} (v : BitVec n) : Nat :=
  v.toNat + if v.msb then 2 ^ 32 - 2 ^ n else 0

/-- `signed32(v)` (spec/00_scope.md R9). -/
def signed32 (v : Word) : Int :=
  if v.toNat ≥ 2 ^ 31 then (v.toNat : Int) - 2 ^ 32 else v.toNat

/-- A read of `x[i]`: `x[0]` always reads 0 (spec/10_state.md R21, spec/00_scope.md R11). -/
def State.reg (s : State) (i : Reg) : Word :=
  if i = 0 then 0#32 else s.regs[i]

/-- `x[i] <- v`: discarded for `i = 0` (spec/10_state.md R21, R22). -/
def State.setReg (s : State) (i : Reg) (v : Word) : State :=
  if i = 0 then s else { s with regs := s.regs.set i v }

/-- The effective address of LB and SB: base plus zero-extended offset, an exact sum
(spec/43_load_store.md R171). -/
def byteAddress (s : State) (base : Reg) (imm : BitVec 8) : Nat :=
  (s.reg base).toNat + zext imm

/-- The effective address of LH, LW, SH and SW: base plus the 32-bit pattern of the sign-extended offset,
an exact sum that never wraps (spec/43_load_store.md R171). -/
def wordAddress (s : State) (base : Reg) (imm : BitVec 8) : Nat :=
  (s.reg base).toNat + sext imm

end Sys2Proof.Machine
end

