-- ==== Sys2Proof/Machine/Alu.lean ====
section
/-!
DEFINITION. The results of the ALU instructions (spec/41_alu_register.md, spec/42_alu_immediate.md): each
computed exactly on numbers and then masked to 32 bits.
-/

namespace Sys2Proof.Machine

/-- ADD and ADDI: the sum, masked (spec/41_alu_register.md R121, spec/42_alu_immediate.md R151). -/
def addWrap (a : Word) (b : Nat) : Word :=
  u32 (a.toNat + b)

/-- MUL: the product's low 16 bits (spec/41_alu_register.md R122). -/
def mulLow (a b : Word) : Word :=
  u32 (a.toNat * b.toNat % 2 ^ 16)

/-- MULH under each `MULH_MODE` (spec/41_alu_register.md R123). -/
def mulHigh (mode : MulhMode) (a b : Word) : Word :=
  match mode with
  | .shiftIntoHigh => u32 (a.toNat * b.toNat * 2 ^ 16)
  | .highHalf => u32 (a.toNat * b.toNat / 2 ^ 16 % 2 ^ 16)

/-- DIV for a divisor that is not 0: unsigned, truncating (spec/41_alu_register.md R124). -/
def divUnsigned (a b : Word) : Word :=
  u32 (a.toNat / b.toNat)

/-- REM for a divisor that is not 0: unsigned (spec/41_alu_register.md R125). -/
def remUnsigned (a b : Word) : Word :=
  u32 (a.toNat % b.toNat)

/-- A shift amount, never reduced mod 32 (spec/41_alu_register.md R130). Every shift by 32 or more has the
result of a shift by 32 (Sys2Proof.Laws.shiftLeft_eq and its companions), so larger amounts are cut to 32
and no huge power of 2 is computed. -/
def shiftAmount (s : Nat) : Nat :=
  min s 32

/-- SLL and SLLI: `u32(a * 2^s)` (spec/41_alu_register.md R130). -/
def shiftLeft (a : Word) (s : Nat) : Word :=
  u32 (a.toNat * 2 ^ shiftAmount s)

/-- SRL and SRLI: `floor(a / 2^s)` (spec/41_alu_register.md R131). -/
def shiftRight (a : Word) (s : Nat) : Word :=
  u32 (a.toNat / 2 ^ shiftAmount s)

/-- `sra(a, s)` under each `SRA_MODE` (spec/41_alu_register.md R132). -/
def shiftRightArith (mode : SraMode) (a : Word) (s : Nat) : Word :=
  if a.msb = false then shiftRight a s
  else
    match mode with
    | .magnitude => u32OfInt (-(((2 ^ 32 - a.toNat) / 2 ^ shiftAmount s : Nat) : Int))
    | .floor => u32OfInt ((signed32 a).fdiv ((2 ^ shiftAmount s : Nat) : Int))

/-- LUI: the immediate over the low half of the old value (spec/42_alu_immediate.md R160). -/
def withUpperHalf (old : Word) (imm : BitVec 16) : Word :=
  u32 (zext imm * 2 ^ 16 + old.toNat % 2 ^ 16)

/-- LLI: the immediate under the high half of the old value (spec/42_alu_immediate.md R161). -/
def withLowerHalf (old : Word) (imm : BitVec 16) : Word :=
  u32 (old.toNat / 2 ^ 16 * 2 ^ 16 + zext imm)

end Sys2Proof.Machine
end

