-- ==== Sys2Proof/Machine/Flags.lean ====
section
/-!
DEFINITION. The comparisons. The core has no flags and no condition codes (spec/10_state.md R27): a compare
instruction writes 0 or 1 to a register, and a branch compares two registers.
-/

namespace Sys2Proof.Machine

/-- Less than, unsigned (spec/41_alu_register.md R133, spec/44_control_transfer.md R193). -/
def ltUnsigned (a b : Word) : Bool :=
  decide (a.toNat < b.toNat)

/-- Less than or equal, unsigned (spec/44_control_transfer.md R194). -/
def leUnsigned (a b : Word) : Bool :=
  decide (a.toNat ≤ b.toNat)

/-- Less than, signed (spec/41_alu_register.md R134, spec/44_control_transfer.md R195). -/
def ltSigned (a b : Word) : Bool :=
  decide (signed32 a < signed32 b)

/-- Less than or equal, signed (spec/44_control_transfer.md R196, LESS_EQUAL). -/
def leSigned (a b : Word) : Bool :=
  decide (signed32 a ≤ signed32 b)

/-- BLTES's comparison under each `BLTES_MODE` (spec/44_control_transfer.md R196). -/
def bltesTaken (mode : BltesMode) (a b : Word) : Bool :=
  match mode with
  | .strict => ltSigned a b
  | .lessEqual => leSigned a b

/-- The value a compare instruction writes: 1 if the comparison holds, else 0 (spec/10_state.md R27). -/
def truthWord (holds : Bool) : Word :=
  if holds then 1#32 else 0#32

end Sys2Proof.Machine
end

