-- ==== Sys2Proof/Machine/Ops.lean ====
section
/-!
DEFINITION. The operations every instruction shares: the access to one data cell, an instruction's effect
and its commit (spec/40_execution_kernel.md R106 to R108), and taking a fault (spec/60_exceptions.md R212).
-/

namespace Sys2Proof.Machine

/-- The numeric value of `STATUS` (spec/10_state.md R28). -/
def Status.code : Status → BitVec 2
  | .running => 0
  | .haltedEnd => 1
  | .haltedLimit => 2
  | .faulted => 3

/-- The cause code in `FAULT_CAUSE` (spec/60_exceptions.md R211). -/
def FaultCause.code : FaultCause → Nat
  | .noFault => 0
  | .illegalOpcode => 1
  | .illegalRegister => 2
  | .divideByZero => 3
  | .memRange => 4
  | .misalignedFetch => 5
  | .unimplemented => 6

/-- A fault a step raises: its cause and `FAULT_INFO` (spec/60_exceptions.md R211). -/
structure Raised where
  cause : FaultCause
  info : Nat
deriving DecidableEq, Repr

/-- The width of a data access (spec/20_memory.md R48). -/
inductive Width where
  | byte | half | word
deriving DecidableEq, Repr

/-- The bits a data access of the width moves (spec/20_memory.md R48). -/
def Width.bits : Width → Nat
  | .byte => 8
  | .half => 16
  | .word => 32

/-- `v mod 2^n` for an access of `n` bits (spec/20_memory.md R45). -/
def Width.mask (width : Width) (v : Word) : Word :=
  u32 (v.toNat % 2 ^ width.bits)

/-- The contents of data cell `a`. -/
def State.cell (s : State) (a : Nat) : Word :=
  Memory.read s.dmem a

/-- `MemRead(a, n)`: the cell's low `n` bits, zero-extended (spec/20_memory.md R45). -/
def memRead (s : State) (a : Nat) (width : Width) : Word :=
  width.mask (s.cell a)

/-- `MemWrite(a, n, v)`: the whole cell is replaced by `v mod 2^n` (spec/20_memory.md R45). -/
def memWrite (s : State) (a : Nat) (width : Width) (v : Word) : State :=
  { s with dmem := Memory.write s.dmem a (width.mask v) }

/-- What an instruction without a fault asks for (spec/40_execution_kernel.md R106). `jump` is the explicit
new PC of R108, four below the landing address; it is an integer because a target of 0 gives −4. -/
structure Effect where
  regw : Option (Reg × Word) := none
  memw : Option (Nat × Width × Word) := none
  jump : Option Int := none
deriving DecidableEq, Repr

/-- `next_pc = (if jump = t then t else pc) + 4` (spec/40_execution_kernel.md R108, spec/90_conflicts.md C1). -/
def nextPc (pc : Nat) (jump : Option Int) : Nat :=
  match jump with
  | none => pc + 4
  | some t => (t + 4).toNat

/-- The register part of a commit (spec/40_execution_kernel.md R107). -/
def commitReg (s : State) : Option (Reg × Word) → State
  | none => s
  | some (i, v) => s.setReg i v

/-- The data-memory part of a commit (spec/40_execution_kernel.md R107). -/
def commitMem (s : State) : Option (Nat × Width × Word) → State
  | none => s
  | some (a, width, v) => memWrite s a width v

/-- The commit of an effect: register, cell, `RETIRED` and `pc` at once (spec/40_execution_kernel.md R107). -/
def commit (s : State) (e : Effect) : State :=
  let t := commitMem (commitReg s e.regw) e.memw
  { t with retired := s.retired + 1, pc := nextPc s.pc e.jump }

/-- TAKING A FAULT, the core's one exception entry (spec/60_exceptions.md R212): STATUS and the fault record
are written, and every register, `pc`, `RETIRED` and every cell keeps its value
(spec/40_execution_kernel.md R109). There is no mode, mask, stack or vector. -/
def raiseFault (s : State) (f : Raised) : State :=
  { s with status := .faulted, faultCause := f.cause, faultPc := s.pc, faultInfo := f.info }

/-- THE ONLY WAY OUT of a fault or a halt: a new run from reset with the same launch inputs
(spec/60_exceptions.md R214, spec/70_reset_and_hazards.md R230). No instruction returns from a fault. -/
def newRun (s : State) : State :=
  State.ofConfig s.cfg

/-- The end of an instruction: its fault is taken or its effect is committed
(spec/40_execution_kernel.md R106, R107, R109). -/
def complete (s : State) (result : Except Raised Effect) : Host.Outcome State Fault Refusal :=
  match result with
  | .ok e => .next (commit s e)
  | .error f => .next (raiseFault s f)

/-- An instruction whose one effect is a register write (spec/41_alu_register.md R120). -/
def writeResult (s : State) (rd : Reg) (v : Word) : Host.Outcome State Fault Refusal :=
  complete s (.ok { regw := some (rd, v) })

/-- A load: the range check of spec/43_load_store.md R178, then the access. -/
def loadCell (s : State) (rd : Reg) (ea : Nat) (width : Width) : Host.Outcome State Fault Refusal :=
  complete s <|
    if s.cfg.memSize ≤ ea then .error ⟨.memRange, ea⟩
    else .ok { regw := some (rd, memRead s ea width) }

/-- A store: the range check of spec/43_load_store.md R178, then the access. -/
def storeCell (s : State) (v : Word) (ea : Nat) (width : Width) : Host.Outcome State Fault Refusal :=
  complete s <|
    if s.cfg.memSize ≤ ea then .error ⟨.memRange, ea⟩
    else .ok { memw := some (ea, width, v) }

/-- A conditional branch to the absolute byte offset `zext_8(imm)` (spec/44_control_transfer.md R190). -/
def branch (s : State) (taken : Bool) (imm : BitVec 8) : Host.Outcome State Fault Refusal :=
  complete s (.ok { jump := if taken then some ((zext imm : Int) - 4) else none })

end Sys2Proof.Machine
end

