-- ==== Sys2Proof/Machine/AluImmediate.lean ====
section
/-!
DEFINITION. The immediate ALU instructions, LUI and LLI (spec/42_alu_immediate.md).
-/

namespace Sys2Proof.Machine

/-- ADDI: the immediate is sign-extended (spec/42_alu_immediate.md R151). -/
def execAddi (rd rs1 : Reg) (imm : BitVec 8) (s : State) : Host.Outcome State Fault Refusal :=
  writeResult s rd (addWrap (s.reg rs1) (sext imm))

/-- ANDI (spec/42_alu_immediate.md R152). -/
def execAndi (rd rs1 : Reg) (imm : BitVec 8) (s : State) : Host.Outcome State Fault Refusal :=
  writeResult s rd (s.reg rs1 &&& u32 (zext imm))

/-- ORI (spec/42_alu_immediate.md R153). -/
def execOri (rd rs1 : Reg) (imm : BitVec 8) (s : State) : Host.Outcome State Fault Refusal :=
  writeResult s rd (s.reg rs1 ||| u32 (zext imm))

/-- XORI (spec/42_alu_immediate.md R154). -/
def execXori (rd rs1 : Reg) (imm : BitVec 8) (s : State) : Host.Outcome State Fault Refusal :=
  writeResult s rd (s.reg rs1 ^^^ u32 (zext imm))

/-- SLLI: by 0 to 255 (spec/42_alu_immediate.md R155). -/
def execSlli (rd rs1 : Reg) (imm : BitVec 8) (s : State) : Host.Outcome State Fault Refusal :=
  writeResult s rd (shiftLeft (s.reg rs1) (zext imm))

/-- SRLI: by 0 to 255 (spec/42_alu_immediate.md R156). -/
def execSrli (rd rs1 : Reg) (imm : BitVec 8) (s : State) : Host.Outcome State Fault Refusal :=
  writeResult s rd (shiftRight (s.reg rs1) (zext imm))

/-- SRAI, by `SRA_MODE` (spec/42_alu_immediate.md R157). -/
def execSrai (rd rs1 : Reg) (imm : BitVec 8) (s : State) : Host.Outcome State Fault Refusal :=
  writeResult s rd (shiftRightArith s.cfg.sraMode (s.reg rs1) (zext imm))

/-- SLTI: unsigned, against the zero-extended immediate (spec/42_alu_immediate.md R158). -/
def execSlti (rd rs1 : Reg) (imm : BitVec 8) (s : State) : Host.Outcome State Fault Refusal :=
  writeResult s rd (truthWord (ltUnsigned (s.reg rs1) (u32 (zext imm))))

/-- SLTSI: signed, against the sign-extended immediate (spec/42_alu_immediate.md R159). -/
def execSltsi (rd rs1 : Reg) (imm : BitVec 8) (s : State) : Host.Outcome State Fault Refusal :=
  writeResult s rd (truthWord (ltSigned (s.reg rs1) (u32 (sext imm))))

/-- LUI: the low half of rd is kept (spec/42_alu_immediate.md R160). -/
def execLui (rd : Reg) (imm : BitVec 16) (s : State) : Host.Outcome State Fault Refusal :=
  writeResult s rd (withUpperHalf (s.reg rd) imm)

/-- LLI: the high half of rd is kept (spec/42_alu_immediate.md R161). -/
def execLli (rd : Reg) (imm : BitVec 16) (s : State) : Host.Outcome State Fault Refusal :=
  writeResult s rd (withLowerHalf (s.reg rd) imm)

end Sys2Proof.Machine
end

