-- ==== Sys2Proof/Machine/AluRegister.lean ====
section
/-!
DEFINITION. The register-register ALU instructions and SEQZ (spec/41_alu_register.md). Every source is read
before the write, and the write is discarded for rd = 0 (R120).
-/

namespace Sys2Proof.Machine

/-- ADD: `x[rd] <- u32(x[rs1] + x[rs2])` (spec/41_alu_register.md R121). -/
def execAdd (rd rs1 rs2 : Reg) (s : State) : Host.Outcome State Fault Refusal :=
  writeResult s rd (addWrap (s.reg rs1) (s.reg rs2).toNat)

/-- MUL: the low 16 bits of the product (spec/41_alu_register.md R122). -/
def execMul (rd rs1 rs2 : Reg) (s : State) : Host.Outcome State Fault Refusal :=
  writeResult s rd (mulLow (s.reg rs1) (s.reg rs2))

/-- MULH, by `MULH_MODE` (spec/41_alu_register.md R123). -/
def execMulh (rd rs1 rs2 : Reg) (s : State) : Host.Outcome State Fault Refusal :=
  writeResult s rd (mulHigh s.cfg.mulhMode (s.reg rs1) (s.reg rs2))

/-- DIV: unsigned, DIVIDE_BY_ZERO for a divisor of 0 (spec/41_alu_register.md R124). -/
def execDiv (rd rs1 rs2 : Reg) (s : State) : Host.Outcome State Fault Refusal :=
  complete s <|
    if s.reg rs2 = 0#32 then .error ⟨.divideByZero, 0⟩
    else .ok { regw := some (rd, divUnsigned (s.reg rs1) (s.reg rs2)) }

/-- REM: unsigned, DIVIDE_BY_ZERO for a divisor of 0 (spec/41_alu_register.md R125, spec/90_conflicts.md C5). -/
def execRem (rd rs1 rs2 : Reg) (s : State) : Host.Outcome State Fault Refusal :=
  complete s <|
    if s.reg rs2 = 0#32 then .error ⟨.divideByZero, 0⟩
    else .ok { regw := some (rd, remUnsigned (s.reg rs1) (s.reg rs2)) }

/-- AND (spec/41_alu_register.md R126). -/
def execAnd (rd rs1 rs2 : Reg) (s : State) : Host.Outcome State Fault Refusal :=
  writeResult s rd (s.reg rs1 &&& s.reg rs2)

/-- OR (spec/41_alu_register.md R127). -/
def execOr (rd rs1 rs2 : Reg) (s : State) : Host.Outcome State Fault Refusal :=
  writeResult s rd (s.reg rs1 ||| s.reg rs2)

/-- XOR (spec/41_alu_register.md R128). -/
def execXor (rd rs1 rs2 : Reg) (s : State) : Host.Outcome State Fault Refusal :=
  writeResult s rd (s.reg rs1 ^^^ s.reg rs2)

/-- NOT: the second source is decoded and its value not used (spec/41_alu_register.md R129). -/
def execNot (rd rs1 _rs2 : Reg) (s : State) : Host.Outcome State Fault Refusal :=
  writeResult s rd (s.reg rs1 ^^^ 0xFFFFFFFF#32)

/-- SLL: by the full value of `x[rs2]` (spec/41_alu_register.md R130). -/
def execSll (rd rs1 rs2 : Reg) (s : State) : Host.Outcome State Fault Refusal :=
  writeResult s rd (shiftLeft (s.reg rs1) (s.reg rs2).toNat)

/-- SRL: by the full value of `x[rs2]` (spec/41_alu_register.md R131). -/
def execSrl (rd rs1 rs2 : Reg) (s : State) : Host.Outcome State Fault Refusal :=
  writeResult s rd (shiftRight (s.reg rs1) (s.reg rs2).toNat)

/-- SRA, by `SRA_MODE` and the full value of `x[rs2]` (spec/41_alu_register.md R132). -/
def execSra (rd rs1 rs2 : Reg) (s : State) : Host.Outcome State Fault Refusal :=
  writeResult s rd (shiftRightArith s.cfg.sraMode (s.reg rs1) (s.reg rs2).toNat)

/-- SLT: unsigned (spec/41_alu_register.md R133). -/
def execSlt (rd rs1 rs2 : Reg) (s : State) : Host.Outcome State Fault Refusal :=
  writeResult s rd (truthWord (ltUnsigned (s.reg rs1) (s.reg rs2)))

/-- SLTS: signed (spec/41_alu_register.md R134). -/
def execSlts (rd rs1 rs2 : Reg) (s : State) : Host.Outcome State Fault Refusal :=
  writeResult s rd (truthWord (ltSigned (s.reg rs1) (s.reg rs2)))

/-- SEQZ (spec/41_alu_register.md R135). -/
def execSeqz (rd rs1 : Reg) (s : State) : Host.Outcome State Fault Refusal :=
  writeResult s rd (truthWord (decide (s.reg rs1 = 0#32)))

end Sys2Proof.Machine
end

