-- ==== Sys2Proof/Machine/Control.lean ====
section
/-!
DEFINITION. Branches and jumps (spec/44_control_transfer.md). No target is checked at the transfer (R201).
-/

namespace Sys2Proof.Machine

/-- JALR's source: with `JALR_LINK_FIRST` it is read after the link is written, so with rd = rs1 ≠ 0 it is
the link (spec/44_control_transfer.md R197). -/
def jalrSource (s : State) (rd rs1 : Reg) : Word :=
  if s.cfg.jalrLinkFirst then (s.setReg rd (u32 s.pc)).reg rs1 else s.reg rs1

/-- BEQ (spec/44_control_transfer.md R191). -/
def execBeq (rs1 rs2 : Reg) (imm : BitVec 8) (s : State) : Host.Outcome State Fault Refusal :=
  branch s (decide (s.reg rs1 = s.reg rs2)) imm

/-- BNEQ (spec/44_control_transfer.md R192). -/
def execBneq (rs1 rs2 : Reg) (imm : BitVec 8) (s : State) : Host.Outcome State Fault Refusal :=
  branch s (decide (s.reg rs1 ≠ s.reg rs2)) imm

/-- BLT: unsigned (spec/44_control_transfer.md R193). -/
def execBlt (rs1 rs2 : Reg) (imm : BitVec 8) (s : State) : Host.Outcome State Fault Refusal :=
  branch s (ltUnsigned (s.reg rs1) (s.reg rs2)) imm

/-- BLE: unsigned (spec/44_control_transfer.md R194). -/
def execBle (rs1 rs2 : Reg) (imm : BitVec 8) (s : State) : Host.Outcome State Fault Refusal :=
  branch s (leUnsigned (s.reg rs1) (s.reg rs2)) imm

/-- BLTS: signed (spec/44_control_transfer.md R195). -/
def execBlts (rs1 rs2 : Reg) (imm : BitVec 8) (s : State) : Host.Outcome State Fault Refusal :=
  branch s (ltSigned (s.reg rs1) (s.reg rs2)) imm

/-- BLTES, by `BLTES_MODE` (spec/44_control_transfer.md R196). -/
def execBltes (rs1 rs2 : Reg) (imm : BitVec 8) (s : State) : Host.Outcome State Fault Refusal :=
  branch s (bltesTaken s.cfg.bltesMode (s.reg rs1) (s.reg rs2)) imm

/-- JALR: links its own pc and lands at source + imm + 4 (spec/44_control_transfer.md R197,
spec/90_conflicts.md C1). -/
def execJalr (rd rs1 : Reg) (imm : BitVec 8) (s : State) : Host.Outcome State Fault Refusal :=
  complete s (.ok {
    regw := some (rd, u32 s.pc)
    jump := some (((jalrSource s rd rs1).toNat + zext imm : Nat) : Int) })

/-- JAL: links its own pc and lands at the absolute target (spec/44_control_transfer.md R198). -/
def execJal (rd : Reg) (imm : BitVec 16) (s : State) : Host.Outcome State Fault Refusal :=
  complete s (.ok { regw := some (rd, u32 s.pc), jump := some ((zext imm : Int) - 4) })

/-- J (spec/44_control_transfer.md R199). -/
def execJ (imm : BitVec 24) (s : State) : Host.Outcome State Fault Refusal :=
  complete s (.ok { jump := some ((zext imm : Int) - 4) })

end Sys2Proof.Machine
end

