-- ==== Sys2Proof/Machine/LoadStore.lean ====
section
/-!
DEFINITION. Loads and stores (spec/43_load_store.md).
-/

namespace Sys2Proof.Machine

/-- LB: zero-extended offset, zero-extended value (spec/43_load_store.md R172). -/
def execLb (rd rs1 : Reg) (imm : BitVec 8) (s : State) : Host.Outcome State Fault Refusal :=
  loadCell s rd (byteAddress s rs1 imm) .byte

/-- LH: sign-extended offset, zero-extended value (spec/43_load_store.md R173). -/
def execLh (rd rs1 : Reg) (imm : BitVec 8) (s : State) : Host.Outcome State Fault Refusal :=
  loadCell s rd (wordAddress s rs1 imm) .half

/-- LW (spec/43_load_store.md R174). -/
def execLw (rd rs1 : Reg) (imm : BitVec 8) (s : State) : Host.Outcome State Fault Refusal :=
  loadCell s rd (wordAddress s rs1 imm) .word

/-- SB: the whole cell is replaced (spec/43_load_store.md R175). -/
def execSb (rs2 rs1 : Reg) (imm : BitVec 8) (s : State) : Host.Outcome State Fault Refusal :=
  storeCell s (s.reg rs2) (byteAddress s rs1 imm) .byte

/-- SH (spec/43_load_store.md R176). -/
def execSh (rs2 rs1 : Reg) (imm : BitVec 8) (s : State) : Host.Outcome State Fault Refusal :=
  storeCell s (s.reg rs2) (wordAddress s rs1 imm) .half

/-- SW (spec/43_load_store.md R177). -/
def execSw (rs2 rs1 : Reg) (imm : BitVec 8) (s : State) : Host.Outcome State Fault Refusal :=
  storeCell s (s.reg rs2) (wordAddress s rs1 imm) .word

end Sys2Proof.Machine
end

