-- ==== Sys2Proof/Machine/Kernel.lean ====
section
/-!
DEFINITION. What a step does before it executes: the checks of spec/60_exceptions.md R213 in their order,
the fetch (spec/20_memory.md R42), the decode (spec/40_execution_kernel.md R101 to R105), and the placing of
one word where the next step fetches.
-/

namespace Sys2Proof.Machine

/-- The bytes of the word at the pc that lie inside the stream (spec/20_memory.md R41, R42). -/
def fetchBytes (s : State) : List Byte :=
  ([0, 1, 2, 3].filter fun k => decide (s.pc + k < s.cfg.imemLen)).map fun k =>
    Memory.read s.cfg.imem (s.pc + k)

/-- End of stream (spec/40_execution_kernel.md R102). -/
def pastEnd (s : State) : Bool :=
  decide (s.cfg.imemLen ≤ s.pc)

/-- The instruction cap is reached (spec/40_execution_kernel.md R103). -/
def capReached (s : State) : Bool :=
  match s.cfg.maxSteps with
  | none => false
  | some n => decide (n ≤ s.retired)

/-- A normal halt: STATUS changes and nothing else (spec/40_execution_kernel.md R102, R103). -/
def haltWith (s : State) (status : Status) : State :=
  { s with status := status }

/-- `FAULT_INFO` of an illegal register: `k · 2^16 + value` (spec/60_exceptions.md R211). -/
def registerInfo (k value : Nat) : Nat :=
  k * 2 ^ 16 + value

/-- A rejected word raises its fault (spec/40_execution_kernel.md R105, spec/60_exceptions.md R211). A word
cut off by the end of the stream cannot be launched and is refused. -/
def rejectWord (s : State) : DecodeError → Host.Outcome State Fault Refusal
  | .truncatedWord => .refused .truncatedStream
  | .illegalOpcode b => .next (raiseFault s ⟨.illegalOpcode, b.toNat⟩)
  | .illegalRegister k value => .next (raiseFault s ⟨.illegalRegister, registerInfo k value⟩)
  | .unimplemented b => .next (raiseFault s ⟨.unimplemented, b.toNat⟩)

/-- Everything of a step before execution, in the order of spec/60_exceptions.md R213: either the
instruction to execute in this state, or the step's outcome without one. -/
def fetchDecode (s : State) : Except (Host.Outcome State Fault Refusal) Instr :=
  if s.status ≠ .running then .error (.fault (.stopped s.status))
  else if pastEnd s then .error (.next (haltWith s .haltedEnd))
  else if capReached s then .error (.next (haltWith s .haltedLimit))
  else if s.pc % 4 ≠ 0 then .error (.next (raiseFault s ⟨.misalignedFetch, s.pc⟩))
  else
    match decodeBytes s.cfg.opcodeMap (fetchBytes s) with
    | .ok (i, _) => .ok i
    | .error e => .error (rejectWord s e)

/-- The offset the next step fetches from: the pc, or 0 where no word of a legal stream can stand at it. -/
def fetchSlot (s : State) : Nat :=
  if s.pc % 4 = 0 ∧ s.pc + 4 ≤ 2 ^ 24 then s.pc else 0

/-- The state whose next step fetches the word `w`, and nothing else changed that this does not need: the
stream holds `w`'s bytes at the pc and reaches past them, the core is running, and the cap is not reached. It
stands for the host's launch of a stream (log entry 1). -/
def placeWord (s : State) (w : Word) : State :=
  let slot := fetchSlot s
  let len := if s.cfg.streamLengthLegal then s.cfg.imemLen else 0
  { s with
    pc := slot
    status := .running
    cfg := { s.cfg with
      imem := Memory.writeList s.cfg.imem slot (bytesOfWord w)
      imemLen := max len (slot + 4)
      maxSteps := if capReached s then none else s.cfg.maxSteps } }

/-- The host's reset with launch inputs (spec/40_execution_kernel.md R100, spec/70_reset_and_hazards.md
R230, R232). A configuration that must not be launched is refused (spec/93_implementation_defined.md). -/
def launch (cfg : Config) : Host.Outcome State Fault Refusal :=
  if cfg.wellFormed then .next (State.ofConfig cfg) else .refused .illegalLaunch

end Sys2Proof.Machine
end

