-- ==== Sys2Proof/Machine/Step.lean ====
section
/-!
DEFINITION. One step of the core (spec/40_execution_kernel.md R100 to R111).
-/

namespace Sys2Proof.Machine

/-- One step: the checks, the fetch and the decode, then the executor, which commits its effect or takes its
fault. A state that is not RUNNING has no step (R101). -/
def step (s : State) : Host.Outcome State Fault Refusal :=
  match fetchDecode s with
  | .ok i => exec i s
  | .error outcome => outcome

/-- The state with the instruction whose bits are `w` (numbered as spec/opcode_table.json numbers them, the
bits above `nbits` being 0) stored where `step` fetches its next instruction. -/
def State.withFetchWord (s : State) (nbits w : Nat) : State :=
  placeWord s (BitVec.ofNat 32 (w % 2 ^ nbits))

end Sys2Proof.Machine
end

