-- ==== Sys2Proof/Machine/Assembler.lean ====
section
/-!
DEFINITION. The assembler (spec/30_encoding.md R85 to R92): source text to tokens, tokens to labels, tokens
and labels to bytes. It is a tool outside the hardware (spec/00_scope.md R4); `step` does not use it.
-/

namespace Sys2Proof.Toolchain

/-- The canonical, upper-case name of a mnemonic (spec/30_encoding.md R70, decision D27). -/
def mnemonicName : Mnemonic → List Char
  | .add => "ADD".toList
  | .mul => "MUL".toList
  | .mulh => "MULH".toList
  | .div => "DIV".toList
  | .rem => "REM".toList
  | .slt => "SLT".toList
  | .slts => "SLTS".toList
  | .seqz => "SEQZ".toList
  | .and => "AND".toList
  | .or => "OR".toList
  | .xor => "XOR".toList
  | .not => "NOT".toList
  | .sll => "SLL".toList
  | .srl => "SRL".toList
  | .sra => "SRA".toList
  | .addi => "ADDI".toList
  | .slti => "SLTI".toList
  | .sltsi => "SLTSI".toList
  | .lui => "LUI".toList
  | .lli => "LLI".toList
  | .andi => "ANDI".toList
  | .ori => "ORI".toList
  | .xori => "XORI".toList
  | .slli => "SLLI".toList
  | .srli => "SRLI".toList
  | .srai => "SRAI".toList
  | .lb => "LB".toList
  | .lh => "LH".toList
  | .lw => "LW".toList
  | .sb => "SB".toList
  | .sh => "SH".toList
  | .sw => "SW".toList
  | .beq => "BEQ".toList
  | .bneq => "BNEQ".toList
  | .blt => "BLT".toList
  | .ble => "BLE".toList
  | .blts => "BLTS".toList
  | .bltes => "BLTES".toList
  | .jalr => "JALR".toList
  | .jal => "JAL".toList
  | .j => "J".toList

/-- `rN` for register N (spec/30_encoding.md R85, R94). -/
def registerName (r : Reg) : List Char :=
  'r' :: Nat.toDigits 10 r.val

/-- The kinds of token of spec/30_encoding.md R86. The digits of a HEX token are validated by the encoder
(R87). -/
inductive TokenKind where
  | label (name : List Char)
  | opcode (op : Mnemonic)
  | register (r : Reg)
  | numeric (v : Nat)
  | signed (magnitude : Nat)
  | hex (digits : List Char)
  | identifier (name : List Char)
  | eof
deriving DecidableEq, Repr

/-- A token with its 1-based line and its 1-based place among the words of the line (spec/30_encoding.md
R86; log entry 4 for the place). -/
structure Token where
  kind : TokenKind
  line : Nat
  word : Nat
deriving DecidableEq, Repr

/-! ### Lexing (spec/30_encoding.md R86, R87) -/

/-- What the source splits into once separators stand around `:`, `,`, `;` and newline. -/
inductive SourceUnit where
  | word (w : List Char)
  | colon | comma | semicolon | newline
deriving DecidableEq, Repr

/-- The word collected so far (in reverse), if there is one, before the other units. -/
def flushWord (collected : List Char) (rest : List SourceUnit) : List SourceUnit :=
  if collected = [] then rest else .word collected.reverse :: rest

/-- The source split into units (spec/30_encoding.md R86). -/
def splitUnits (collected : List Char) : List Char → List SourceUnit
  | [] => flushWord collected []
  | c :: rest =>
    if c = ':' then flushWord collected (.colon :: splitUnits [] rest)
    else if c = ',' then flushWord collected (.comma :: splitUnits [] rest)
    else if c = ';' then flushWord collected (.semicolon :: splitUnits [] rest)
    else if c = '\n' then flushWord collected (.newline :: splitUnits [] rest)
    else if c.isWhitespace then flushWord collected (splitUnits [] rest)
    else splitUnits (c :: collected) rest

/-- All digits, and at least one. -/
def allDigits (w : List Char) : Bool :=
  decide (w ≠ []) && w.all Char.isDigit

/-- The value of a list of decimal digits (spec/30_encoding.md R90). -/
def decimalValue (digits : List Char) : Nat :=
  digits.foldl (fun v c => v * 10 + (c.toNat - '0'.toNat)) 0

/-- A hexadecimal digit's value. -/
def hexDigit (c : Char) : Option Nat :=
  if c.isDigit then some (c.toNat - '0'.toNat)
  else if 'a'.toNat ≤ c.toNat ∧ c.toNat ≤ 'f'.toNat then some (c.toNat - 'a'.toNat + 10)
  else if 'A'.toNat ≤ c.toNat ∧ c.toNat ≤ 'F'.toNat then some (c.toNat - 'A'.toNat + 10)
  else none

/-- The value of the digits after `0x`, if there is one and all are hexadecimal (spec/30_encoding.md R90). -/
def hexValue (digits : List Char) : Option Nat :=
  if digits = [] then none
  else digits.foldl (fun acc c => acc.bind fun v => (hexDigit c).map fun d => v * 16 + d) (some 0)

/-- The kind of a word that no `:` follows, in the order of spec/30_encoding.md R86. -/
def classifyWord (w : List Char) : TokenKind :=
  match Mnemonic.all.find? fun op => mnemonicName op == w.map Char.toUpper with
  | some op => .opcode op
  | none =>
    match (List.finRange 32).find? fun r => registerName r == w.map Char.toLower with
    | some r => .register r
    | none =>
      if allDigits w then .numeric (decimalValue w)
      else
        match w with
        | '-' :: digits => if allDigits digits then .signed (decimalValue digits) else .identifier w
        | '0' :: 'x' :: digits => .hex digits
        | _ => .identifier w

/-- Units to tokens: commas give none, `;` discards the units up to the end of its line, and EOF is the last
token (spec/30_encoding.md R86, R87). DESIGN CHOICE (log entry 4): EOF stands on the line where the source ends,
at the place after that line's last word. -/
def tokensOfUnits (line word : Nat) (inComment : Bool) : List SourceUnit → List Token
  | [] => [⟨.eof, line, word⟩]
  | .newline :: rest => tokensOfUnits (line + 1) 1 false rest
  | .semicolon :: rest => tokensOfUnits line word true rest
  | .comma :: rest => tokensOfUnits line word inComment rest
  | .word w :: .colon :: rest =>
    if inComment then tokensOfUnits line word true rest
    else ⟨.label w, line, word⟩ :: tokensOfUnits line (word + 1) false rest
  | .colon :: rest =>
    if inComment then tokensOfUnits line word true rest
    else ⟨.label [], line, word⟩ :: tokensOfUnits line (word + 1) false rest
  | .word w :: rest =>
    if inComment then tokensOfUnits line word true rest
    else ⟨classifyWord w, line, word⟩ :: tokensOfUnits line (word + 1) false rest

/-- The lexer. It never fails (spec/30_encoding.md R87). -/
def lex (source : List Char) : List Token :=
  tokensOfUnits 1 1 false (splitUnits [] source)

/-! ### The label pass (spec/30_encoding.md R88) -/

/-- The assembly errors (spec/30_encoding.md R92). -/
inductive AsmErrorKind where
  | insufficientOperands | unknownOpcode | unresolvedLabel | badRegister | badNumber
  | wrongOperand | strayOperand | duplicateLabel
deriving DecidableEq, Repr

/-- An assembly error with the line and word of the token it cites. -/
structure AsmError where
  kind : AsmErrorKind
  line : Nat
  word : Nat
deriving DecidableEq, Repr

/-- The error of a kind at a token. -/
def errorAt (kind : AsmErrorKind) (t : Token) : AsmError :=
  ⟨kind, t.line, t.word⟩

/-- The label table: each label with the byte counter at its declaration. -/
abbrev LabelTable := List (List Char × Nat)

/-- The offset of a label. -/
def LabelTable.offset (table : LabelTable) (name : List Char) : Option Nat :=
  (table.find? fun e => e.1 == name).map Prod.snd

/-- The label pass from byte `counter` on: an OPCODE advances it by 4, a LABEL records it and must be new
(spec/30_encoding.md R88, decision D27). -/
def labelPass (counter : Nat) (table : LabelTable) : List Token → Except AsmError LabelTable
  | [] => .ok table
  | t :: rest =>
    match t.kind with
    | .opcode _ => labelPass (counter + 4) table rest
    | .label name =>
      match table.offset name with
      | some _ => .error (errorAt .duplicateLabel t)
      | none => labelPass counter ((name, counter) :: table) rest
    | _ => labelPass counter table rest

/-! ### The emission pass (spec/30_encoding.md R89, R90) -/

/-- What may stand in a field: a register, or an immediate of a width (spec/30_encoding.md R61, R89). -/
inductive FieldKind where
  | register
  | immediate (width : Nat)
deriving DecidableEq, Repr

/-- The fields a shape needs, in the order f1, f2, f3 (spec/30_encoding.md R89). -/
def fieldKinds : Shape → List FieldKind
  | .dss => [.register, .register, .register]
  | .dsi => [.register, .register, .immediate 8]
  | .ds => [.register, .register]
  | .di => [.register, .immediate 16]
  | .i => [.immediate 24]

/-- The value of an operand token in a field, masked to the field's width; a SIGNED token is folded in two's
complement (spec/30_encoding.md R90). DESIGN CHOICE (log entry 4): an error cites the token found in the operand
position, so insufficient operands cites EOF and not the OPCODE. -/
def operandValue (table : LabelTable) (field : FieldKind) (t : Token) : Except AsmError Nat :=
  match field with
  | .register =>
    match t.kind with
    | .register r => .ok r.val
    | .identifier _ => .error (errorAt .badRegister t)
    | .eof => .error (errorAt .insufficientOperands t)
    | _ => .error (errorAt .wrongOperand t)
  | .immediate width =>
    match t.kind with
    | .numeric v => .ok (v % 2 ^ width)
    | .signed v => .ok ((2 ^ width - v % 2 ^ width) % 2 ^ width)
    | .hex digits =>
      match hexValue digits with
      | some v => .ok (v % 2 ^ width)
      | none => .error (errorAt .badNumber t)
    | .identifier name =>
      match table.offset name with
      | some v => .ok (v % 2 ^ width)
      | none => .error (errorAt .unresolvedLabel t)
    | .eof => .error (errorAt .insufficientOperands t)
    | _ => .error (errorAt .wrongOperand t)

/-- A mnemonic with the values of its fields in order. -/
def rawOfValues (op : Mnemonic) (values : List Nat) : RawInstr :=
  ⟨op, values.getD 0 0, values.getD 1 0, values.getD 2 0⟩

/-- An instruction whose operands are still being read: its mnemonic, the fields to come and the values so
far. -/
structure Pending where
  op : Mnemonic
  missing : List FieldKind
  values : List Nat
deriving DecidableEq, Repr

/-- The emission pass (spec/30_encoding.md R89): each OPCODE consumes exactly the operands its shape needs,
and the fields are packed into one word. DESIGN CHOICE (log entry 4): operand tokens are checked from left to
right and the first error is the one reported, so an instruction with both a wrong-kind operand and too few
operands is a wrong operand. -/
def emitWords (m : OpcodeMap) (table : LabelTable) : Option Pending → List Token → Except AsmError (List Word)
  | _, [] => .ok []
  | some p, t :: rest =>
    match p.missing with
    | [] => .error (errorAt .strayOperand t)
    | [last] => do
      let v ← operandValue table last t
      let words ← emitWords m table none rest
      return encodeRaw m (rawOfValues p.op (p.values ++ [v])) :: words
    | field :: more => do
      let v ← operandValue table field t
      emitWords m table (some ⟨p.op, more, p.values ++ [v]⟩) rest
  | none, t :: rest =>
    match t.kind with
    | .opcode op => emitWords m table (some ⟨op, fieldKinds op.shape, []⟩) rest
    | .label _ => emitWords m table none rest
    | .eof => .ok []
    | .identifier _ => .error (errorAt .unknownOpcode t)
    | _ => .error (errorAt .strayOperand t)

/-- The assembler: the words of a source text (spec/30_encoding.md R85 to R92). -/
def assembleWords (m : OpcodeMap) (source : List Char) : Except AsmError (List Word) := do
  let tokens := lex source
  let table ← labelPass 0 [] tokens
  emitWords m table none tokens

/-- The assembler: the byte stream of a source text, big-endian words in source order. -/
def assemble (m : OpcodeMap) (source : List Char) : Except AsmError (List Byte) := do
  let words ← assembleWords m source
  return words.flatMap bytesOfWord

end Sys2Proof.Toolchain
end

