-- ==== Sys2Proof/Machine/Disassembler.lean ====
section
/-!
DEFINITION. The disassembler (spec/30_encoding.md R94, R95): bytes to text, one line for each word. It is a
tool outside the hardware (spec/00_scope.md R4); `step` does not use it.
-/

namespace Sys2Proof.Toolchain

/-- The field values of an instruction with the kinds of their fields, in the order f1, f2, f3. -/
def fieldValues (i : Instr) : List (FieldKind × Nat) :=
  (fieldKinds i.mnemonic.shape).zip [i.raw.f1, i.raw.f2, i.raw.f3]

/-- One argument: a register as `rN`, an immediate in unsigned decimal (spec/30_encoding.md R94). -/
def renderArgument : FieldKind × Nat → List Char
  | (.register, v) => 'r' :: Nat.toDigits 10 v
  | (.immediate _, v) => Nat.toDigits 10 v

/-- `MNEMONIC arg[, arg]*` (spec/30_encoding.md R94, decision D27 for the separator). -/
def renderInstr (i : Instr) : List Char :=
  mnemonicName i.mnemonic ++ ' ' :: List.intercalate [',', ' '] ((fieldValues i).map renderArgument)

/-- The instructions of a byte stream. It fails where a word's opcode byte or register index has no known
name (spec/30_encoding.md R95), and where the last word is cut short (R60). -/
def decodeStream (m : OpcodeMap) : List Byte → Except DecodeError (List Instr)
  | [] => .ok []
  | b0 :: b1 :: b2 :: b3 :: rest => do
    let i ← decode m (wordOfBytes b0 b1 b2 b3)
    let is ← decodeStream m rest
    return i :: is
  | _ => .error .truncatedWord

/-- The text of a byte stream, one instruction on each line (spec/30_encoding.md R94). -/
def disassemble (m : OpcodeMap) (bytes : List Byte) : Except DecodeError (List Char) := do
  let is ← decodeStream m bytes
  return is.flatMap fun i => renderInstr i ++ ['\n']

end Sys2Proof.Toolchain
end

