-- ==== Sys2Proof/Safety.lean ====
section
/-!
DEFINITION. The terms claims are written in: what an instruction that completes leaves (with its frame), what
a fault leaves, the invariant of the states a run passes through, and the instructions by what they may write.
-/

namespace Sys2Proof.Machine

/-- Nothing of the machine but registers, cells, `pc` and `RETIRED` differs: the configuration (with the
instruction stream), STATUS and the fault record are as before. -/
structure SameControl (s t : State) : Prop where
  cfg : t.cfg = s.cfg
  status : t.status = s.status
  faultCause : t.faultCause = s.faultCause
  faultPc : t.faultPc = s.faultPc
  faultInfo : t.faultInfo = s.faultInfo

/-- An instruction completed whose one write is `v` to `rd`, and the next PC is `next`
(spec/40_execution_kernel.md R107). A write to r0 is discarded (spec/10_state.md R21). -/
structure RegisterWritten (s t : State) (rd : Reg) (v : Word) (next : Nat) : Prop where
  dest : rd ≠ 0 → t.reg rd = v
  zero : t.reg 0 = 0#32
  others : ∀ r, r ≠ rd → t.reg r = s.reg r
  cells : ∀ a, t.cell a = s.cell a
  pc : t.pc = next
  retired : t.retired = s.retired + 1
  control : SameControl s t

/-- An instruction completed whose one write is `v` to data cell `a` (spec/40_execution_kernel.md R107). -/
structure CellWritten (s t : State) (a : Nat) (v : Word) : Prop where
  cell : t.cell a = v
  otherCells : ∀ b, b ≠ a → t.cell b = s.cell b
  registers : ∀ r, t.reg r = s.reg r
  pc : t.pc = s.pc + 4
  retired : t.retired = s.retired + 1
  control : SameControl s t

/-- An instruction completed that writes no register and no cell, and the next PC is `next`. -/
structure PcMoved (s t : State) (next : Nat) : Prop where
  pc : t.pc = next
  registers : ∀ r, t.reg r = s.reg r
  cells : ∀ a, t.cell a = s.cell a
  retired : t.retired = s.retired + 1
  control : SameControl s t

/-- A fault was taken: STATUS and the fault record are written, and every register, cell, `pc`, `RETIRED`
and the configuration are as before (spec/60_exceptions.md R212). -/
structure FaultTaken (s t : State) (cause : FaultCause) (info : Nat) : Prop where
  status : t.status = .faulted
  faultCause : t.faultCause = cause
  faultPc : t.faultPc = s.pc
  faultInfo : t.faultInfo = info
  registers : ∀ r, t.reg r = s.reg r
  cells : ∀ a, t.cell a = s.cell a
  pc : t.pc = s.pc
  retired : t.retired = s.retired
  cfg : t.cfg = s.cfg

/-- The state is FAULTED, FAULT_CAUSE holds the code and FAULT_INFO the value (spec/60_exceptions.md R211). -/
structure EndsFaulted (t : State) (code info : Nat) : Prop where
  status : t.status = .faulted
  faultCause : t.faultCause.code = code
  faultInfo : t.faultInfo = info

/-- The word at the pc, by `Fetch`'s byte order (spec/20_memory.md R42). -/
def wordAtPc (s : State) : Word :=
  wordOfBytes (Memory.read s.cfg.imem s.pc) (Memory.read s.cfg.imem (s.pc + 1))
    (Memory.read s.cfg.imem (s.pc + 2)) (Memory.read s.cfg.imem (s.pc + 3))

/-- The step fetches: the core is running, the pc is a multiple of 4 with a whole word of the stream at it,
and the cap is not reached (spec/40_execution_kernel.md R101 to R104). -/
structure Fetches (s : State) : Prop where
  running : s.status = .running
  inside : s.pc + 4 ≤ s.cfg.imemLen
  belowCap : ∀ n, s.cfg.maxSteps = some n → s.retired < n
  aligned : s.pc % 4 = 0

/-- The greatest value the pc can hold (spec/00_scope.md R7). -/
def pcMax : Nat := 0xFFFFFFFF + 255 + 4

/-- What holds of every state of a run. -/
structure Invariant (s : State) : Prop where
  /-- The launch was one the host may make (spec/70_reset_and_hazards.md R232). -/
  launched : s.cfg.wellFormed = true
  /-- r0 holds 0 (spec/10_state.md R21). -/
  zeroRegister : s.regs[0] = 0#32
  /-- The PC fits in 33 bits (spec/00_scope.md R7). -/
  pcBound : s.pc ≤ pcMax
  /-- The data memory is in canonical form. -/
  dmemCanonical : Memory.wf s.dmem = true
  /-- Only cells below `MEM_SIZE` exist (spec/20_memory.md R44). -/
  dmemInRange : Memory.within s.cfg.memSize s.dmem = true
  /-- Without a fault the fault record is clear (spec/10_state.md R29). -/
  recordClear : s.status ≠ .faulted → s.faultCause = .noFault ∧ s.faultPc = 0 ∧ s.faultInfo = 0
  /-- With a fault the record names a cause and the pc it stopped at (spec/60_exceptions.md R212), and 33 bits
  hold its value (spec/10_state.md R29). -/
  recordSet : s.status = .faulted → s.faultCause ≠ .noFault ∧ s.faultPc = s.pc ∧ s.faultInfo < 2 ^ 33
  /-- A run ends normally at the end of its stream or at its cap (spec/40_execution_kernel.md R102, R103). -/
  endReason : (s.status = .haltedEnd → s.cfg.imemLen ≤ s.pc) ∧
    (s.status = .haltedLimit → ∃ n, s.cfg.maxSteps = some n ∧ n = s.retired)
  /-- The cap bounds the completed instructions (spec/40_execution_kernel.md R103). -/
  capKept : ∀ n, s.cfg.maxSteps = some n → s.retired ≤ n

/-- The register an instruction may write (spec/10_state.md R24); none for stores, branches and J. -/
def writes : Instr → Option Reg
  | .add rd _ _ | .mul rd _ _ | .mulh rd _ _ | .div rd _ _ | .rem rd _ _ => some rd
  | .and rd _ _ | .or rd _ _ | .xor rd _ _ | .not rd _ _ => some rd
  | .sll rd _ _ | .srl rd _ _ | .sra rd _ _ | .slt rd _ _ | .slts rd _ _ | .seqz rd _ => some rd
  | .addi rd _ _ | .andi rd _ _ | .ori rd _ _ | .xori rd _ _ => some rd
  | .slli rd _ _ | .srli rd _ _ | .srai rd _ _ | .slti rd _ _ | .sltsi rd _ _ => some rd
  | .lui rd _ | .lli rd _ | .lb rd _ _ | .lh rd _ _ | .lw rd _ _ => some rd
  | .jalr rd _ _ | .jal rd _ => some rd
  | .sb _ _ _ | .sh _ _ _ | .sw _ _ _ => none
  | .beq _ _ _ | .bneq _ _ _ | .blt _ _ _ | .ble _ _ _ | .blts _ _ _ | .bltes _ _ _ | .j _ => none

/-- The load of a width (spec/43_load_store.md R172 to R174). -/
def loadOf : Width → Reg → Reg → BitVec 8 → Instr
  | .byte => .lb
  | .half => .lh
  | .word => .lw

/-- The store of a width (spec/43_load_store.md R175 to R177). -/
def storeOf : Width → Reg → Reg → BitVec 8 → Instr
  | .byte => .sb
  | .half => .sh
  | .word => .sw

/-- The effective address of the load and of the store of a width (spec/43_load_store.md R171). -/
def addressOf (width : Width) (s : State) (base : Reg) (imm : BitVec 8) : Nat :=
  match width with
  | .byte => byteAddress s base imm
  | .half => wordAddress s base imm
  | .word => wordAddress s base imm

/-- The word of an opcode byte and three 8-bit fields (spec/30_encoding.md R61, DSS and DSI). -/
def wordOfThree (opcode f1 f2 f3 : BitVec 8) : Word :=
  opcode ++ f1 ++ f2 ++ f3

/-- The word of an opcode byte, an 8-bit and a 16-bit field (spec/30_encoding.md R61, DS and DI). -/
def wordOfTwo (opcode f1 : BitVec 8) (f2 : BitVec 16) : Word :=
  opcode ++ f1 ++ f2

/-- The word of an opcode byte and a 24-bit field (spec/30_encoding.md R61, I). -/
def wordOfOne (opcode : BitVec 8) (f1 : BitVec 24) : Word :=
  opcode ++ f1

/-- A register index in an 8-bit field. -/
def regBits (r : Reg) : BitVec 8 :=
  BitVec.ofNat 8 r.val

/-- The value of the first register field that holds 32 or more, with its field number, in the order f1, f2,
f3 (spec/30_encoding.md R68, R69), read off a word of the given shape. -/
def firstIllegalRegister (sh : Shape) (w : Word) : Option (Nat × Nat) :=
  let f1 := w.toNat / 2 ^ 16 % 2 ^ 8
  let f2 := w.toNat / 2 ^ 8 % 2 ^ 8
  let f3 := w.toNat % 2 ^ 8
  let wide := w.toNat % 2 ^ 16
  match sh with
  | .dss => if 32 ≤ f1 then some (1, f1) else if 32 ≤ f2 then some (2, f2) else if 32 ≤ f3 then some (3, f3) else none
  | .dsi => if 32 ≤ f1 then some (1, f1) else if 32 ≤ f2 then some (2, f2) else none
  | .ds => if 32 ≤ f1 then some (1, f1) else if 32 ≤ wide then some (2, wide) else none
  | .di => if 32 ≤ f1 then some (1, f1) else none
  | .i => none

end Sys2Proof.Machine

namespace Sys2Proof.Toolchain

/-- The token of one argument as the disassembler renders it: a register, or a NUMERIC immediate
(spec/30_encoding.md R94). -/
def argumentToken : FieldKind × Nat → Token
  | (.register, v) => ⟨.register (Fin.ofNat 32 v), 1, 1⟩
  | (.immediate _, v) => ⟨.numeric v, 1, 1⟩

/-- The tokens of the text the disassembler gives for an instruction: its OPCODE, then one operand token for
each field in order (spec/30_encoding.md R94, R96). -/
def instrTokens (i : Instr) : List Token :=
  ⟨.opcode i.mnemonic, 1, 1⟩ :: (fieldValues i).map argumentToken

/-- A token is an OPCODE. -/
def Token.isOpcode (t : Token) : Bool :=
  match t.kind with
  | .opcode _ => true
  | _ => false

end Sys2Proof.Toolchain
end

