-- ==== Sys2Proof/Certificates/Slice0/Obligations.lean ====
section
/-!
DEFINITION. The statements. Each is about the machine, for every state and every operand it admits, and names
in its docstring the rules it rests on. Where a statement has a mode parameter it is stated for every value.
-/

open Sys2Proof Sys2Proof.Machine Sys2Proof.Toolchain

/-- Reset sets every piece of state to its reset value (R33). -/
def Obligations.ResetSetsEveryPieceOfState : Prop :=
  (∀ cfg : Config,
    (∀ i, (State.ofConfig cfg).reg i = 0#32) ∧ (State.ofConfig cfg).pc = 0 ∧
    (State.ofConfig cfg).status = .running ∧ (State.ofConfig cfg).faultCause.code = 0 ∧
    (State.ofConfig cfg).faultPc = 0 ∧ (State.ofConfig cfg).faultInfo = 0 ∧
    (State.ofConfig cfg).retired = 0 ∧
    (∀ a, a < cfg.memSize → (State.ofConfig cfg).cell a = Memory.read cfg.memInit a) ∧
    (State.ofConfig cfg).cfg = cfg) ∧
  State.reset = State.ofConfig Config.default ∧ ∀ a, State.reset.cell a = 0#32

/-- The invariant holds after every legal reset (10_state.md R33, 70_reset_and_hazards.md R230, 70_reset_and_hazards.md R232). -/
def Obligations.InvariantHoldsAfterReset : Prop :=
  (∀ cfg : Config, cfg.wellFormed = true → Invariant (State.ofConfig cfg)) ∧ Invariant State.reset

/-- Every step keeps the invariant (00_scope.md R7, 10_state.md R21, 10_state.md R29, 20_memory.md R44, 40_execution_kernel.md R103, 60_exceptions.md R212). -/
def Obligations.EveryStepKeepsInvariant : Prop :=
  ∀ s t : State, Invariant s → step s = .next t → Invariant t

/-- Decoding an encoded instruction gives it back, under every injective opcode map (30_encoding.md R60, 30_encoding.md R61, 30_encoding.md R62, 30_encoding.md R68, 30_encoding.md R71). -/
def Obligations.DecodeInvertsEncode : Prop :=
  ∀ (m : OpcodeMap) (i : Instr) (rest : List Byte), m.injective = true →
    decode m (encode m i) = .ok i ∧ decodeBytes m (encodeBytes m i ++ rest) = .ok (i, rest)

/-- A word that decodes to an instruction is that instruction's word: no bit is dropped (30_encoding.md R61, 30_encoding.md R68, 30_encoding.md R96). -/
def Obligations.EncodeInvertsDecode : Prop :=
  ∀ (m : OpcodeMap) (w : Word) (i : Instr), decode m w = .ok i → encode m i = w

/-- The default classifier is the bit rule, with 215 bytes unassigned (30_encoding.md R66, 30_encoding.md R67, 30_encoding.md R70, 30_encoding.md R74). -/
def Obligations.DefaultClassifierFollowsBitRule : Prop :=
  (∀ b : Byte, OpcodeMap.default.classify b =
    if b ∉ Mnemonic.all.map Mnemonic.defaultByte then none
    else if b = 0x0B#8 then some .ds
    else if b = 0x91#8 ∨ b = 0x92#8 ∨ b = 0xEA#8 then some .di
    else if b = 0xEB#8 then some .i
    else if b.getLsbD 7 = false then some .dss
    else some .dsi) ∧
  ((List.range 256).countP fun k => (OpcodeMap.default.classify (BitVec.ofNat 8 k)).isNone) = 215 ∧
  OpcodeMap.default.classify 0x00#8 = none ∧ OpcodeMap.default.classify 0xFF#8 = none

/-- A register field of 32 or more raises ILLEGAL_REGISTER, the first in field order, used or not (R69). -/
def Obligations.IllegalRegisterFieldsFault : Prop :=
  (∀ (s : State) (op : Mnemonic) (k v : Nat), Fetches s →
    s.cfg.opcodeMap.slot (opcodeByte (wordAtPc s)) = .core op →
    firstIllegalRegister op.shape (wordAtPc s) = some (k, v) →
    ∃ t, step s = .next t ∧ FaultTaken s t .illegalRegister (k * 2 ^ 16 + v)) ∧
  ∀ (m : OpcodeMap) (w : Word) (op : Mnemonic), m.slot (opcodeByte w) = .core op →
    firstIllegalRegister op.shape w = none → ∃ i, decode m w = .ok i ∧ i.mnemonic = op

/-- A fetched word with an unassigned opcode byte raises ILLEGAL_OPCODE (30_encoding.md R74, 40_execution_kernel.md R105, 60_exceptions.md R211). -/
def Obligations.UnassignedOpcodeFaults : Prop :=
  ∀ s : State, Fetches s → s.cfg.opcodeMap.classify (opcodeByte (wordAtPc s)) = none →
    ∃ t, step s = .next t ∧ FaultTaken s t .illegalOpcode (opcodeByte (wordAtPc s)).toNat

/-- An opcode of an extended map with no executor raises UNIMPLEMENTED, after the register checks. That an added
byte carries a shape, and that its register fields are checked by that shape first, is the model's reading: log
entry 3, DEDUCED (40_execution_kernel.md R106, 60_exceptions.md R211, 60_exceptions.md R213). -/
def Obligations.OpcodeWithoutExecutorFaults : Prop :=
  ∀ (s : State) (sh : Shape), Fetches s →
    s.cfg.opcodeMap.slot (opcodeByte (wordAtPc s)) = .extension sh →
    match firstIllegalRegister sh (wordAtPc s) with
    | none => ∃ t, step s = .next t ∧ FaultTaken s t .unimplemented (opcodeByte (wordAtPc s)).toNat
    | some (k, v) => ∃ t, step s = .next t ∧ FaultTaken s t .illegalRegister (k * 2 ^ 16 + v)

/-- Words written out from the encoding tables decode to their instructions (30_encoding.md R61, 30_encoding.md R70, 95_test_vectors.md). -/
def Obligations.SampleWordsDecode : Prop :=
  decode OpcodeMap.default 0x01010203#32 = .ok (.add 1 2 3) ∧
  decode OpcodeMap.default 0x0B010002#32 = .ok (.seqz 1 2) ∧
  decode OpcodeMap.default 0x810100FF#32 = .ok (.addi 1 0 0xFF#8) ∧
  decode OpcodeMap.default 0x9104ABCD#32 = .ok (.lui 4 0xABCD#16) ∧
  decode OpcodeMap.default 0xCB020010#32 = .ok (.sw 2 0 16#8) ∧
  decode OpcodeMap.default 0xE2010008#32 = .ok (.bneq 1 0 8#8) ∧
  decode OpcodeMap.default 0xEA1F000C#32 = .ok (.jal 31 12#16) ∧
  decode OpcodeMap.default 0xEBFFFFFF#32 = .ok (.j 0xFFFFFF#24)

/-- A step that fetches executes exactly the instruction the fetched word decodes to (40_execution_kernel.md R105, 40_execution_kernel.md R106). -/
def Obligations.StepRunsDecodedInstruction : Prop :=
  ∀ (s : State) (i : Instr), Fetches s → decode s.cfg.opcodeMap (wordAtPc s) = .ok i → step s = exec i s

/-- The fetched word is the four bytes at the pc, the first the most significant (20_memory.md R42, 20_memory.md R43). -/
def Obligations.FetchIsBigEndian : Prop :=
  ∀ s : State, s.pc % 4 = 0 → s.pc + 4 ≤ s.cfg.imemLen →
    fetchBytes s = [Memory.read s.cfg.imem s.pc, Memory.read s.cfg.imem (s.pc + 1),
      Memory.read s.cfg.imem (s.pc + 2), Memory.read s.cfg.imem (s.pc + 3)] ∧
    (wordAtPc s).toNat = (Memory.read s.cfg.imem s.pc).toNat * 2 ^ 24 +
      (Memory.read s.cfg.imem (s.pc + 1)).toNat * 2 ^ 16 +
      (Memory.read s.cfg.imem (s.pc + 2)).toNat * 2 ^ 8 + (Memory.read s.cfg.imem (s.pc + 3)).toNat ∧
    opcodeByte (wordAtPc s) = Memory.read s.cfg.imem s.pc

/-- Only a running core has a next state. That the model's step answers its own fault `stopped` in every other
status is the model's choice, log entry 6 (DEDUCED): the spec says only that the core has no step there (40_execution_kernel.md R101). -/
def Obligations.NoStepUnlessRunning : Prop :=
  (∀ s t : State, step s = .next t → s.status = .running) ∧
  ∀ s : State, s.status ≠ .running → step s = .fault (.stopped s.status)

/-- A pc at or past the end of the stream halts with HALTED_END and changes nothing else (R102). -/
def Obligations.PcPastEndHalts : Prop :=
  (∀ s : State, s.status = .running → s.cfg.imemLen ≤ s.pc →
    step s = .next { s with status := .haltedEnd }) ∧
  ∀ cfg : Config, cfg.imemLen = 0 →
    step (State.ofConfig cfg) = .next { State.ofConfig cfg with status := .haltedEnd }

/-- A misaligned pc inside the stream raises MISALIGNED_FETCH (R104). -/
def Obligations.MisalignedFetchFaults : Prop :=
  ∀ s : State, s.status = .running → s.pc < s.cfg.imemLen →
    (∀ n, s.cfg.maxSteps = some n → s.retired < n) → s.pc % 4 ≠ 0 →
    ∃ t, step s = .next t ∧ FaultTaken s t .misalignedFetch s.pc

/-- Every fault is precise, with a cause code from 1 to 6; the codes of STATUS and FAULT_CAUSE (10_state.md R28, 10_state.md R29, 40_execution_kernel.md R109, 60_exceptions.md R211, 60_exceptions.md R212). -/
def Obligations.FaultsArePrecise : Prop :=
  (∀ s t : State, step s = .next t → t.status = .faulted →
    ∃ (c : FaultCause) (info : Nat), c ≠ .noFault ∧ FaultTaken s t c info ∧
      t.status.code = 3#2 ∧ 1 ≤ t.faultCause.code ∧ t.faultCause.code ≤ 6) ∧
  [Status.running, .haltedEnd, .haltedLimit, .faulted].map Status.code = [0#2, 1#2, 2#2, 3#2] ∧
  [FaultCause.noFault, .illegalOpcode, .illegalRegister, .divideByZero, .memRange, .misalignedFetch,
    .unimplemented].map FaultCause.code = [0, 1, 2, 3, 4, 5, 6]

/-- A running core always has a next state: it halts, faults, or completes exactly one instruction (40_execution_kernel.md R107, 40_execution_kernel.md R110, 40_execution_kernel.md R111). -/
def Obligations.EveryStepHaltsFaultsOrCompletesOne : Prop :=
  ∀ s : State, Invariant s → s.status = .running →
    ∃ t, step s = .next t ∧
      (t = { s with status := .haltedEnd } ∨ t = { s with status := .haltedLimit } ∨
       (∃ c info, c ≠ .noFault ∧ FaultTaken s t c info) ∨
       ∃ i, decode s.cfg.opcodeMap (wordAtPc s) = .ok i ∧ exec i s = .next t ∧
         t.status = .running ∧ t.retired = s.retired + 1 ∧ SameControl s t ∧
         (∀ r, writes i ≠ some r → t.reg r = s.reg r) ∧
         ∀ a, (∀ (width : Width) (rs2 rs1 : Reg) (imm : BitVec 8), i = storeOf width rs2 rs1 imm →
           a ≠ addressOf width s rs1 imm) → t.cell a = s.cell a)

/-- With a cap N at most N instructions complete, and a capped run ends with RETIRED = N (R103). -/
def Obligations.CapLimitsEveryRun : Prop :=
  (∀ (s : State) (n : Nat), s.status = .running → s.pc < s.cfg.imemLen → s.cfg.maxSteps = some n →
    n ≤ s.retired → step s = .next { s with status := .haltedLimit }) ∧
  (∀ (cfg : Config) (n k : Nat) (t : State), cfg.maxSteps = some n →
    Sys2Proof.core.run k (State.ofConfig cfg) = .next t →
    t.retired ≤ n ∧ (t.status = .haltedLimit → t.retired = n)) ∧
  ∀ (cfg : Config) (k : Nat) (t : State), cfg.maxSteps = none →
    Sys2Proof.core.run k (State.ofConfig cfg) = .next t → t.status ≠ .haltedLimit

/-- A legal run with cap N ends within N + 1 steps (40_execution_kernel.md R103, 40_execution_kernel.md R112, 60_exceptions.md R219). -/
def Obligations.CappedRunsEnd : Prop :=
  ∀ (cfg : Config) (n : Nat), cfg.wellFormed = true → cfg.maxSteps = some n →
    ∃ (k : Nat) (t : State), k ≤ n + 1 ∧ Sys2Proof.core.run k (State.ofConfig cfg) = .next t ∧
      t.status ≠ .running

/-- A step changes a register only if the fetched instruction writes that register (10_state.md R21, 10_state.md R24). -/
def Obligations.OnlyDestinationRegisterChanges : Prop :=
  ∀ (s t : State) (r : Reg), step s = .next t → t.reg r ≠ s.reg r →
    r ≠ 0 ∧ ∃ i, decode s.cfg.opcodeMap (wordAtPc s) = .ok i ∧ writes i = some r

/-- A step changes a data cell only if it is the cell a fetched store addresses (20_memory.md R40, 20_memory.md R46, 20_memory.md R48). -/
def Obligations.OnlyStoresChangeCells : Prop :=
  ∀ (s t : State) (a : Nat), step s = .next t → t.cell a ≠ s.cell a →
    ∃ (width : Width) (rs2 rs1 : Reg) (imm : BitVec 8),
      decode s.cfg.opcodeMap (wordAtPc s) = .ok (storeOf width rs2 rs1 imm) ∧
      a = addressOf width s rs1 imm ∧ a < s.cfg.memSize

/-- No run changes the instruction stream or any other part of the configuration (10_state.md R32, 20_memory.md R54, 70_reset_and_hazards.md R242). -/
def Obligations.ConfigurationNeverChanges : Prop :=
  ∀ (k : Nat) (s t : State), Sys2Proof.core.run k s = .next t → t.cfg = s.cfg

/-- ADD writes the sum modulo 2^32 (R121). -/
def Obligations.AddWrapsModulo32Bits : Prop :=
  ∀ (s : State) (rd rs1 rs2 : Reg),
    decode OpcodeMap.default (wordOfThree 0x01#8 (regBits rd) (regBits rs1) (regBits rs2)) = .ok (.add rd rs1 rs2) ∧
    ∃ t, exec (.add rd rs1 rs2) s = .next t ∧ RegisterWritten s t rd
      (BitVec.ofNat 32 ((s.reg rs1).toNat + (s.reg rs2).toNat)) (s.pc + 4)

/-- MUL writes the low 16 bits of the product (R122). -/
def Obligations.MulKeepsLow16Bits : Prop :=
  ∀ (s : State) (rd rs1 rs2 : Reg),
    decode OpcodeMap.default (wordOfThree 0x02#8 (regBits rd) (regBits rs1) (regBits rs2)) = .ok (.mul rd rs1 rs2) ∧
    ∃ t, exec (.mul rd rs1 rs2) s = .next t ∧ RegisterWritten s t rd
      (BitVec.ofNat 32 ((s.reg rs1).toNat * (s.reg rs2).toNat % 2 ^ 16)) (s.pc + 4)

/-- MULH writes the product shifted into the high half, or its bits 31 to 16, by MULH_MODE (R123). -/
def Obligations.MulhFollowsItsMode : Prop :=
  ∀ (s : State) (rd rs1 rs2 : Reg),
    decode OpcodeMap.default (wordOfThree 0x03#8 (regBits rd) (regBits rs1) (regBits rs2)) = .ok (.mulh rd rs1 rs2) ∧
    ∃ t, exec (.mulh rd rs1 rs2) s = .next t ∧ RegisterWritten s t rd
      (match s.cfg.mulhMode with
        | .shiftIntoHigh => BitVec.ofNat 32 ((s.reg rs1).toNat * (s.reg rs2).toNat % 2 ^ 16 * 2 ^ 16)
        | .highHalf => BitVec.ofNat 32 ((s.reg rs1).toNat * (s.reg rs2).toNat / 2 ^ 16 % 2 ^ 16))
      (s.pc + 4)

/-- DIV writes the unsigned quotient, or raises DIVIDE_BY_ZERO (R124). -/
def Obligations.DivTruncatesOrFaults : Prop :=
  ∀ (s : State) (rd rs1 rs2 : Reg),
    decode OpcodeMap.default (wordOfThree 0x04#8 (regBits rd) (regBits rs1) (regBits rs2)) = .ok (.div rd rs1 rs2) ∧
    (s.reg rs2 ≠ 0#32 → ∃ t, exec (.div rd rs1 rs2) s = .next t ∧ RegisterWritten s t rd
      (BitVec.ofNat 32 ((s.reg rs1).toNat / (s.reg rs2).toNat)) (s.pc + 4)) ∧
    (s.reg rs2 = 0#32 → ∃ t, exec (.div rd rs1 rs2) s = .next t ∧ FaultTaken s t .divideByZero 0)

/-- REM writes the unsigned remainder, which with DIV's quotient gives the dividend, or raises DIVIDE_BY_ZERO (R125). -/
def Obligations.RemIsRemainderOrFaults : Prop :=
  ∀ (s : State) (rd rs1 rs2 : Reg),
    decode OpcodeMap.default (wordOfThree 0x05#8 (regBits rd) (regBits rs1) (regBits rs2)) = .ok (.rem rd rs1 rs2) ∧
    (s.reg rs2 ≠ 0#32 → ∃ t, exec (.rem rd rs1 rs2) s = .next t ∧ RegisterWritten s t rd
      (BitVec.ofNat 32 ((s.reg rs1).toNat % (s.reg rs2).toNat)) (s.pc + 4)) ∧
    (s.reg rs2 ≠ 0#32 → rd ≠ 0 → ∃ t u, exec (.div rd rs1 rs2) s = .next t ∧ exec (.rem rd rs1 rs2) s = .next u ∧
      (s.reg rs1).toNat = (s.reg rs2).toNat * (t.reg rd).toNat + (u.reg rd).toNat ∧
      (u.reg rd).toNat < (s.reg rs2).toNat) ∧
    (s.reg rs2 = 0#32 → ∃ t, exec (.rem rd rs1 rs2) s = .next t ∧ FaultTaken s t .divideByZero 0)

/-- AND, OR and XOR write the bitwise result (R126, R127, R128). -/
def Obligations.BitwiseResults : Prop :=
  ∀ (s : State) (rd rs1 rs2 : Reg),
    decode OpcodeMap.default (wordOfThree 0x21#8 (regBits rd) (regBits rs1) (regBits rs2)) = .ok (.and rd rs1 rs2) ∧
    decode OpcodeMap.default (wordOfThree 0x22#8 (regBits rd) (regBits rs1) (regBits rs2)) = .ok (.or rd rs1 rs2) ∧
    decode OpcodeMap.default (wordOfThree 0x23#8 (regBits rd) (regBits rs1) (regBits rs2)) = .ok (.xor rd rs1 rs2) ∧
    ∃ vAnd vOr vXor : Word,
      (∀ k, k < 32 →
        vAnd.getLsbD k = ((s.reg rs1).getLsbD k && (s.reg rs2).getLsbD k) ∧
        vOr.getLsbD k = ((s.reg rs1).getLsbD k || (s.reg rs2).getLsbD k) ∧
        vXor.getLsbD k = ((s.reg rs1).getLsbD k ^^ (s.reg rs2).getLsbD k)) ∧
      (∃ t, exec (.and rd rs1 rs2) s = .next t ∧ RegisterWritten s t rd vAnd (s.pc + 4)) ∧
      (∃ t, exec (.or rd rs1 rs2) s = .next t ∧ RegisterWritten s t rd vOr (s.pc + 4)) ∧
      ∃ t, exec (.xor rd rs1 rs2) s = .next t ∧ RegisterWritten s t rd vXor (s.pc + 4)

/-- NOT writes the complement of its first source; its second is checked and not used (R129). -/
def Obligations.NotComplementsFirstSource : Prop :=
  ∀ (s : State) (rd rs1 rs2 : Reg),
    decode OpcodeMap.default (wordOfThree 0x24#8 (regBits rd) (regBits rs1) (regBits rs2)) = .ok (.not rd rs1 rs2) ∧
    (∀ f3 : BitVec 8, 32 ≤ f3.toNat →
      decode OpcodeMap.default (wordOfThree 0x24#8 (regBits rd) (regBits rs1) f3) =
        .error (.illegalRegister 3 f3.toNat)) ∧
    ∃ t, exec (.not rd rs1 rs2) s = .next t ∧ RegisterWritten s t rd
      (~~~(s.reg rs1)) (s.pc + 4)

/-- SLL and SRL shift by the full value of the second source, not reduced mod 32 (R130, R131). -/
def Obligations.LogicalShiftsUseFullAmount : Prop :=
  ∀ (s : State) (rd rs1 rs2 : Reg),
    decode OpcodeMap.default (wordOfThree 0x29#8 (regBits rd) (regBits rs1) (regBits rs2)) = .ok (.sll rd rs1 rs2) ∧
    decode OpcodeMap.default (wordOfThree 0x2A#8 (regBits rd) (regBits rs1) (regBits rs2)) = .ok (.srl rd rs1 rs2) ∧
    (∃ t, exec (.sll rd rs1 rs2) s = .next t ∧ RegisterWritten s t rd
      (BitVec.ofNat 32 ((s.reg rs1).toNat * 2 ^ (s.reg rs2).toNat)) (s.pc + 4)) ∧
    ∃ t, exec (.srl rd rs1 rs2) s = .next t ∧ RegisterWritten s t rd
      (BitVec.ofNat 32 ((s.reg rs1).toNat / 2 ^ (s.reg rs2).toNat)) (s.pc + 4)

/-- SRA shifts the magnitude and negates, or rounds down, by SRA_MODE (R132). -/
def Obligations.ArithmeticShiftFollowsItsMode : Prop :=
  ∀ (s : State) (rd rs1 rs2 : Reg),
    decode OpcodeMap.default (wordOfThree 0x2B#8 (regBits rd) (regBits rs1) (regBits rs2)) = .ok (.sra rd rs1 rs2) ∧
    ∃ t, exec (.sra rd rs1 rs2) s = .next t ∧ RegisterWritten s t rd
      (if (s.reg rs1).toNat < 2 ^ 31 then BitVec.ofNat 32 ((s.reg rs1).toNat / 2 ^ (s.reg rs2).toNat)
        else match s.cfg.sraMode with
          | .magnitude => BitVec.ofInt 32 (-(((2 ^ 32 - (s.reg rs1).toNat) / 2 ^ (s.reg rs2).toNat : Nat) : Int))
          | .floor => BitVec.ofInt 32 ((s.reg rs1).toInt.fdiv (2 ^ (s.reg rs2).toNat)))
      (s.pc + 4)

/-- SLT writes 1 exactly when less, unsigned; SLTS, signed (R133, R134). -/
def Obligations.CompareRegistersResults : Prop :=
  ∀ (s : State) (rd rs1 rs2 : Reg),
    decode OpcodeMap.default (wordOfThree 0x09#8 (regBits rd) (regBits rs1) (regBits rs2)) = .ok (.slt rd rs1 rs2) ∧
    decode OpcodeMap.default (wordOfThree 0x0A#8 (regBits rd) (regBits rs1) (regBits rs2)) = .ok (.slts rd rs1 rs2) ∧
    (∃ t, exec (.slt rd rs1 rs2) s = .next t ∧ RegisterWritten s t rd
      (if (s.reg rs1).toNat < (s.reg rs2).toNat then 1#32 else 0#32) (s.pc + 4)) ∧
    ∃ t, exec (.slts rd rs1 rs2) s = .next t ∧ RegisterWritten s t rd
      (if (s.reg rs1).toInt < (s.reg rs2).toInt then 1#32 else 0#32) (s.pc + 4)

/-- SEQZ writes 1 exactly for a zero source, and its 16-bit source field must be below 32 (R135). -/
def Obligations.SeqzTestsForZero : Prop :=
  ∀ (s : State) (rd rs1 : Reg),
    decode OpcodeMap.default (wordOfTwo 0x0B#8 (regBits rd) (BitVec.ofNat 16 rs1.val)) = .ok (.seqz rd rs1) ∧
    (∀ f2 : BitVec 16, 32 ≤ f2.toNat →
      decode OpcodeMap.default (wordOfTwo 0x0B#8 (regBits rd) f2) = .error (.illegalRegister 2 f2.toNat)) ∧
    ∃ t, exec (.seqz rd rs1) s = .next t ∧ RegisterWritten s t rd
      (if s.reg rs1 = 0#32 then 1#32 else 0#32) (s.pc + 4)

/-- ADDI adds the sign-extended immediate modulo 2^32 (R151). -/
def Obligations.AddiSignExtendsImmediate : Prop :=
  ∀ (s : State) (rd rs1 : Reg) (imm : BitVec 8),
    decode OpcodeMap.default (wordOfThree 0x81#8 (regBits rd) (regBits rs1) imm) = .ok (.addi rd rs1 imm) ∧
    ∃ t, exec (.addi rd rs1 imm) s = .next t ∧ RegisterWritten s t rd
      (s.reg rs1 + imm.signExtend 32) (s.pc + 4)

/-- ANDI, ORI and XORI use the zero-extended immediate (R152, R153, R154). -/
def Obligations.BitwiseImmediateResults : Prop :=
  ∀ (s : State) (rd rs1 : Reg) (imm : BitVec 8),
    decode OpcodeMap.default (wordOfThree 0xA1#8 (regBits rd) (regBits rs1) imm) = .ok (.andi rd rs1 imm) ∧
    decode OpcodeMap.default (wordOfThree 0xA2#8 (regBits rd) (regBits rs1) imm) = .ok (.ori rd rs1 imm) ∧
    decode OpcodeMap.default (wordOfThree 0xA3#8 (regBits rd) (regBits rs1) imm) = .ok (.xori rd rs1 imm) ∧
    (∃ t, exec (.andi rd rs1 imm) s = .next t ∧ RegisterWritten s t rd
      (s.reg rs1 &&& (0#24 ++ imm)) (s.pc + 4)) ∧
    (∃ t, exec (.ori rd rs1 imm) s = .next t ∧ RegisterWritten s t rd
      (s.reg rs1 ||| (0#24 ++ imm)) (s.pc + 4)) ∧
    ∃ t, exec (.xori rd rs1 imm) s = .next t ∧ RegisterWritten s t rd
      (s.reg rs1 ^^^ (0#24 ++ imm)) (s.pc + 4)

/-- SLLI and SRLI shift by the zero-extended immediate, 0 to 255 (R155, R156). -/
def Obligations.LogicalShiftImmediateResults : Prop :=
  ∀ (s : State) (rd rs1 : Reg) (imm : BitVec 8),
    decode OpcodeMap.default (wordOfThree 0xA9#8 (regBits rd) (regBits rs1) imm) = .ok (.slli rd rs1 imm) ∧
    decode OpcodeMap.default (wordOfThree 0xAA#8 (regBits rd) (regBits rs1) imm) = .ok (.srli rd rs1 imm) ∧
    (∃ t, exec (.slli rd rs1 imm) s = .next t ∧ RegisterWritten s t rd
      (BitVec.ofNat 32 ((s.reg rs1).toNat * 2 ^ imm.toNat)) (s.pc + 4)) ∧
    ∃ t, exec (.srli rd rs1 imm) s = .next t ∧ RegisterWritten s t rd
      (BitVec.ofNat 32 ((s.reg rs1).toNat / 2 ^ imm.toNat)) (s.pc + 4)

/-- SRAI is SRA by the zero-extended immediate, under both SRA modes (R157). -/
def Obligations.ArithmeticShiftImmediateFollowsItsMode : Prop :=
  ∀ (s : State) (rd rs1 : Reg) (imm : BitVec 8),
    decode OpcodeMap.default (wordOfThree 0xAB#8 (regBits rd) (regBits rs1) imm) = .ok (.srai rd rs1 imm) ∧
    ∃ t, exec (.srai rd rs1 imm) s = .next t ∧ RegisterWritten s t rd
      (if (s.reg rs1).toNat < 2 ^ 31 then BitVec.ofNat 32 ((s.reg rs1).toNat / 2 ^ imm.toNat)
        else match s.cfg.sraMode with
          | .magnitude => BitVec.ofInt 32 (-(((2 ^ 32 - (s.reg rs1).toNat) / 2 ^ imm.toNat : Nat) : Int))
          | .floor => BitVec.ofInt 32 ((s.reg rs1).toInt.fdiv (2 ^ imm.toNat)))
      (s.pc + 4)

/-- SLTI compares unsigned with the zero-extended immediate; SLTSI signed with the sign-extended one (R158, R159). -/
def Obligations.CompareImmediateResults : Prop :=
  ∀ (s : State) (rd rs1 : Reg) (imm : BitVec 8),
    decode OpcodeMap.default (wordOfThree 0x89#8 (regBits rd) (regBits rs1) imm) = .ok (.slti rd rs1 imm) ∧
    decode OpcodeMap.default (wordOfThree 0x8A#8 (regBits rd) (regBits rs1) imm) = .ok (.sltsi rd rs1 imm) ∧
    (∃ t, exec (.slti rd rs1 imm) s = .next t ∧ RegisterWritten s t rd
      (if (s.reg rs1).toNat < imm.toNat then 1#32 else 0#32) (s.pc + 4)) ∧
    ∃ t, exec (.sltsi rd rs1 imm) s = .next t ∧ RegisterWritten s t rd
      (if (s.reg rs1).toInt < imm.toInt then 1#32 else 0#32) (s.pc + 4)

/-- LUI replaces the high half of rd and LLI the low half; the other half is kept (R160, R161). -/
def Obligations.UpperAndLowerImmediateKeepTheOtherHalf : Prop :=
  ∀ (s : State) (rd : Reg) (imm : BitVec 16),
    decode OpcodeMap.default (wordOfTwo 0x91#8 (regBits rd) imm) = .ok (.lui rd imm) ∧
    decode OpcodeMap.default (wordOfTwo 0x92#8 (regBits rd) imm) = .ok (.lli rd imm) ∧
    (∃ t, exec (.lui rd imm) s = .next t ∧ RegisterWritten s t rd
      (imm ++ (s.reg rd).extractLsb (15) 0) (s.pc + 4)) ∧
    ∃ t, exec (.lli rd imm) s = .next t ∧ RegisterWritten s t rd
      ((s.reg rd).extractLsb 31 16 ++ imm) (s.pc + 4)

/-- LB reads one cell and zero-extends its low 8 bits (R172). -/
def Obligations.LbLoadsZeroExtendedByte : Prop :=
  ∀ (s : State) (rd rs1 : Reg) (imm : BitVec 8),
    decode OpcodeMap.default (wordOfThree 0xC1#8 (regBits rd) (regBits rs1) imm) = .ok (.lb rd rs1 imm) ∧
    byteAddress s rs1 imm = (s.reg rs1).toNat + imm.toNat ∧
    (byteAddress s rs1 imm < s.cfg.memSize → ∃ t, exec (.lb rd rs1 imm) s = .next t ∧ RegisterWritten s t rd
        (BitVec.ofNat 32 ((s.cell (byteAddress s rs1 imm)).toNat % 2 ^ 8)) (s.pc + 4)) ∧
    (s.cfg.memSize ≤ byteAddress s rs1 imm → ∃ t, exec (.lb rd rs1 imm) s = .next t ∧
      FaultTaken s t .memRange (byteAddress s rs1 imm))

/-- LH reads one cell and zero-extends its low 16 bits (R173). -/
def Obligations.LhLoadsZeroExtendedHalf : Prop :=
  ∀ (s : State) (rd rs1 : Reg) (imm : BitVec 8),
    decode OpcodeMap.default (wordOfThree 0xC2#8 (regBits rd) (regBits rs1) imm) = .ok (.lh rd rs1 imm) ∧
    wordAddress s rs1 imm = (s.reg rs1).toNat + (imm.signExtend 32).toNat ∧
    (wordAddress s rs1 imm < s.cfg.memSize → ∃ t, exec (.lh rd rs1 imm) s = .next t ∧ RegisterWritten s t rd
        (BitVec.ofNat 32 ((s.cell (wordAddress s rs1 imm)).toNat % 2 ^ 16)) (s.pc + 4)) ∧
    (s.cfg.memSize ≤ wordAddress s rs1 imm → ∃ t, exec (.lh rd rs1 imm) s = .next t ∧
      FaultTaken s t .memRange (wordAddress s rs1 imm))

/-- LW reads one whole cell (R174). -/
def Obligations.LwLoadsWholeCell : Prop :=
  ∀ (s : State) (rd rs1 : Reg) (imm : BitVec 8),
    decode OpcodeMap.default (wordOfThree 0xC3#8 (regBits rd) (regBits rs1) imm) = .ok (.lw rd rs1 imm) ∧
    wordAddress s rs1 imm = (s.reg rs1).toNat + (imm.signExtend 32).toNat ∧
    (wordAddress s rs1 imm < s.cfg.memSize → ∃ t, exec (.lw rd rs1 imm) s = .next t ∧ RegisterWritten s t rd
        (BitVec.ofNat 32 ((s.cell (wordAddress s rs1 imm)).toNat % 2 ^ 32)) (s.pc + 4)) ∧
    (s.cfg.memSize ≤ wordAddress s rs1 imm → ∃ t, exec (.lw rd rs1 imm) s = .next t ∧
      FaultTaken s t .memRange (wordAddress s rs1 imm))

/-- SB replaces one whole cell by the low 8 bits of its value register (R175). -/
def Obligations.SbReplacesCellByByte : Prop :=
  ∀ (s : State) (rs2 rs1 : Reg) (imm : BitVec 8), Memory.wf s.dmem = true →
    decode OpcodeMap.default (wordOfThree 0xC9#8 (regBits rs2) (regBits rs1) imm) = .ok (.sb rs2 rs1 imm) ∧
    byteAddress s rs1 imm = (s.reg rs1).toNat + imm.toNat ∧
    (byteAddress s rs1 imm < s.cfg.memSize → ∃ t, exec (.sb rs2 rs1 imm) s = .next t ∧
      CellWritten s t (byteAddress s rs1 imm) (BitVec.ofNat 32 ((s.reg rs2).toNat % 2 ^ 8))) ∧
    (s.cfg.memSize ≤ byteAddress s rs1 imm → ∃ t, exec (.sb rs2 rs1 imm) s = .next t ∧
      FaultTaken s t .memRange (byteAddress s rs1 imm))

/-- SH replaces one whole cell by the low 16 bits of its value register (R176). -/
def Obligations.ShReplacesCellByHalf : Prop :=
  ∀ (s : State) (rs2 rs1 : Reg) (imm : BitVec 8), Memory.wf s.dmem = true →
    decode OpcodeMap.default (wordOfThree 0xCA#8 (regBits rs2) (regBits rs1) imm) = .ok (.sh rs2 rs1 imm) ∧
    wordAddress s rs1 imm = (s.reg rs1).toNat + (imm.signExtend 32).toNat ∧
    (wordAddress s rs1 imm < s.cfg.memSize → ∃ t, exec (.sh rs2 rs1 imm) s = .next t ∧
      CellWritten s t (wordAddress s rs1 imm) (BitVec.ofNat 32 ((s.reg rs2).toNat % 2 ^ 16))) ∧
    (s.cfg.memSize ≤ wordAddress s rs1 imm → ∃ t, exec (.sh rs2 rs1 imm) s = .next t ∧
      FaultTaken s t .memRange (wordAddress s rs1 imm))

/-- SW replaces one whole cell (R177). -/
def Obligations.SwReplacesCell : Prop :=
  ∀ (s : State) (rs2 rs1 : Reg) (imm : BitVec 8), Memory.wf s.dmem = true →
    decode OpcodeMap.default (wordOfThree 0xCB#8 (regBits rs2) (regBits rs1) imm) = .ok (.sw rs2 rs1 imm) ∧
    wordAddress s rs1 imm = (s.reg rs1).toNat + (imm.signExtend 32).toNat ∧
    (wordAddress s rs1 imm < s.cfg.memSize → ∃ t, exec (.sw rs2 rs1 imm) s = .next t ∧
      CellWritten s t (wordAddress s rs1 imm) (BitVec.ofNat 32 ((s.reg rs2).toNat % 2 ^ 32))) ∧
    (s.cfg.memSize ≤ wordAddress s rs1 imm → ∃ t, exec (.sw rs2 rs1 imm) s = .next t ∧
      FaultTaken s t .memRange (wordAddress s rs1 imm))

/-- Every load and store at or past MEM_SIZE raises MEM_RANGE with the exact address, and does not happen (R46, R178). -/
def Obligations.OutOfRangeAccessFaults : Prop :=
  ∀ (s : State) (width : Width) (r base : Reg) (imm : BitVec 8),
    s.cfg.memSize ≤ addressOf width s base imm →
    (∃ t, exec (loadOf width r base imm) s = .next t ∧
      FaultTaken s t .memRange (addressOf width s base imm)) ∧
    ∃ t, exec (storeOf width r base imm) s = .next t ∧
      FaultTaken s t .memRange (addressOf width s base imm)

/-- Effective addresses are exact sums, so a negative LH, LW, SH or SW offset always faults (R171). -/
def Obligations.NegativeOffsetsNeverReachMemory : Prop :=
  ∀ (s : State) (r base : Reg) (imm : BitVec 8),
    addressOf .byte s base imm = (s.reg base).toNat + imm.toNat ∧
    addressOf .half s base imm = (s.reg base).toNat + (imm.signExtend 32).toNat ∧
    addressOf .word s base imm = (s.reg base).toNat + (imm.signExtend 32).toNat ∧
    ∀ width : Width, width ≠ .byte → 0x80 ≤ imm.toNat →
      addressOf width s base imm = (s.reg base).toNat + (2 ^ 32 - 2 ^ 8 + imm.toNat) ∧
      2 ^ 32 - 128 ≤ addressOf width s base imm ∧
      (s.cfg.memSize ≤ 2 ^ 32 - 128 →
        (∃ t, exec (loadOf width r base imm) s = .next t ∧
          FaultTaken s t .memRange (addressOf width s base imm)) ∧
        ∃ t, exec (storeOf width r base imm) s = .next t ∧
          FaultTaken s t .memRange (addressOf width s base imm))

/-- A load from the cell just stored sees the stored value masked to both widths; other cells are unaffected (20_memory.md R45, 20_memory.md R51, 70_reset_and_hazards.md R241). -/
def Obligations.LoadSeesLastStore : Prop :=
  ∀ (s t : State) (stored loaded : Width) (rs2 rs1 rd base : Reg) (imm off : BitVec 8),
    Memory.wf s.dmem = true → addressOf stored s rs1 imm < s.cfg.memSize →
    exec (storeOf stored rs2 rs1 imm) s = .next t →
    addressOf loaded t base off < s.cfg.memSize → rd ≠ 0 →
    ∃ u, exec (loadOf loaded rd base off) t = .next u ∧
      (u.reg rd).toNat =
        if addressOf loaded t base off = addressOf stored s rs1 imm
        then (s.reg rs2).toNat % 2 ^ stored.bits % 2 ^ loaded.bits
        else (s.cell (addressOf loaded t base off)).toNat % 2 ^ loaded.bits

/-- BEQ and BNEQ go to the absolute zero-extended target when equal, respectively not equal (R191, R192). -/
def Obligations.EqualityBranches : Prop :=
  ∀ (s : State) (rs1 rs2 : Reg) (imm : BitVec 8),
    decode OpcodeMap.default (wordOfThree 0xE1#8 (regBits rs1) (regBits rs2) imm) = .ok (.beq rs1 rs2 imm) ∧
    decode OpcodeMap.default (wordOfThree 0xE2#8 (regBits rs1) (regBits rs2) imm) = .ok (.bneq rs1 rs2 imm) ∧
    (∃ t, exec (.beq rs1 rs2 imm) s = .next t ∧ PcMoved s t
      (if s.reg rs1 = s.reg rs2 then imm.toNat else s.pc + 4)) ∧
    ∃ t, exec (.bneq rs1 rs2 imm) s = .next t ∧ PcMoved s t
      (if s.reg rs1 = s.reg rs2 then s.pc + 4 else imm.toNat)

/-- BLT and BLE compare unsigned (R193, R194). -/
def Obligations.UnsignedOrderBranches : Prop :=
  ∀ (s : State) (rs1 rs2 : Reg) (imm : BitVec 8),
    decode OpcodeMap.default (wordOfThree 0xE3#8 (regBits rs1) (regBits rs2) imm) = .ok (.blt rs1 rs2 imm) ∧
    decode OpcodeMap.default (wordOfThree 0xE4#8 (regBits rs1) (regBits rs2) imm) = .ok (.ble rs1 rs2 imm) ∧
    (∃ t, exec (.blt rs1 rs2 imm) s = .next t ∧ PcMoved s t
      (if (s.reg rs1).toNat < (s.reg rs2).toNat then imm.toNat else s.pc + 4)) ∧
    ∃ t, exec (.ble rs1 rs2 imm) s = .next t ∧ PcMoved s t
      (if (s.reg rs1).toNat ≤ (s.reg rs2).toNat then imm.toNat else s.pc + 4)

/-- BLTS compares signed (R195). -/
def Obligations.SignedLessBranch : Prop :=
  ∀ (s : State) (rs1 rs2 : Reg) (imm : BitVec 8),
    decode OpcodeMap.default (wordOfThree 0xE5#8 (regBits rs1) (regBits rs2) imm) = .ok (.blts rs1 rs2 imm) ∧
    ∃ t, exec (.blts rs1 rs2 imm) s = .next t ∧ PcMoved s t
      (if (s.reg rs1).toInt < (s.reg rs2).toInt then imm.toNat else s.pc + 4)

/-- BLTES is a strict signed compare under STRICT and less-or-equal under LESS_EQUAL (R196). -/
def Obligations.SignedLessEqualBranchFollowsItsMode : Prop :=
  ∀ (s : State) (rs1 rs2 : Reg) (imm : BitVec 8),
    decode OpcodeMap.default (wordOfThree 0xE6#8 (regBits rs1) (regBits rs2) imm) = .ok (.bltes rs1 rs2 imm) ∧
    (s.cfg.bltesMode = .strict → exec (.bltes rs1 rs2 imm) s = exec (.blts rs1 rs2 imm) s ∧
      ∃ t, exec (.bltes rs1 rs2 imm) s = .next t ∧ PcMoved s t
      (if (s.reg rs1).toInt < (s.reg rs2).toInt then imm.toNat else s.pc + 4)) ∧
    (s.cfg.bltesMode = .lessEqual →
      ∃ t, exec (.bltes rs1 rs2 imm) s = .next t ∧ PcMoved s t
      (if (s.reg rs1).toInt ≤ (s.reg rs2).toInt then imm.toNat else s.pc + 4))

/-- JALR links its own pc and lands at source + imm + 4, the source read by JALR_LINK_FIRST (R197). -/
def Obligations.JalrLinksAndLandsFourPastTarget : Prop :=
  ∀ (s : State) (rd rs1 : Reg) (imm : BitVec 8),
    decode OpcodeMap.default (wordOfThree 0xE9#8 (regBits rd) (regBits rs1) imm) = .ok (.jalr rd rs1 imm) ∧
    ∃ t, exec (.jalr rd rs1 imm) s = .next t ∧ RegisterWritten s t rd (BitVec.ofNat 32 s.pc)
      ((if s.cfg.jalrLinkFirst = true ∧ rd = rs1 ∧ rd ≠ 0 then s.pc % 2 ^ 32 else (s.reg rs1).toNat) +
        imm.toNat + 4)

/-- JAL links its own pc and lands at the absolute target (R198). -/
def Obligations.JalLinksAndJumps : Prop :=
  ∀ (s : State) (rd : Reg) (imm : BitVec 16),
    decode OpcodeMap.default (wordOfTwo 0xEA#8 (regBits rd) imm) = .ok (.jal rd imm) ∧
    ∃ t, exec (.jal rd imm) s = .next t ∧ RegisterWritten s t rd (BitVec.ofNat 32 s.pc) imm.toNat

/-- J lands at its 24-bit absolute target and writes nothing (R199). -/
def Obligations.JumpLandsAtTarget : Prop :=
  ∀ (s : State) (imm : BitVec 24),
    decode OpcodeMap.default (wordOfOne 0xEB#8 imm) = .ok (.j imm) ∧
    ∃ t, exec (.j imm) s = .next t ∧ PcMoved s t imm.toNat

/-- JALR r0, link, 0 returns to the instruction after the JAL that made the link (44_control_transfer.md R197, 44_control_transfer.md R198, 44_control_transfer.md R200). -/
def Obligations.ReturnResumesAfterCall : Prop :=
  ∀ (s t u : State) (link : Reg) (target : BitVec 16), link ≠ 0 → s.pc < 2 ^ 32 →
    exec (.jal link target) s = .next t → u.reg link = t.reg link →
    ∃ v, exec (.jalr 0 link 0#8) u = .next v ∧ PcMoved u v (s.pc + 4)

/-- Disassembled text assembles to the stream's bytes, and every assembled stream disassembles. The text's line
ends are the model's choice, log entry 4 (30_encoding.md R89, 30_encoding.md R94, 30_encoding.md R95, 30_encoding.md R96). -/
def Obligations.ReassemblyGivesTheSameBytes : Prop :=
  (∀ (m : OpcodeMap) (bytes : List Byte) (text : List Char), disassemble m bytes = .ok text →
    assemble m text = .ok bytes) ∧
  (∀ (m : OpcodeMap) (source : List Char) (bytes : List Byte), m.injective = true →
    assemble m source = .ok bytes →
    ∃ text, disassemble m bytes = .ok text ∧ assemble m text = .ok bytes) ∧
  ∀ (m : OpcodeMap) (bytes : List Byte) (is : List Instr), decodeStream m bytes = .ok is →
    ∃ words, emitWords m [] none (is.flatMap instrTokens ++ [⟨.eof, 1, 1⟩]) = .ok words ∧
      words.flatMap bytesOfWord = bytes

/-- Immediate tokens, NUMERIC, HEX, SIGNED and labels, are masked to the field. That HEX digits may be of either
case (the clauses on upper-case digits and on `hexDigit`) is the model's choice, log entry 4 (DESIGN CHOICE): the
spec says only that they are parsed base 16. That the error of an unresolved label cites the IDENTIFIER token's own
line and word is the model's choice too, log entry 4 (DESIGN CHOICE): R92 says only that a line and token are cited (30_encoding.md R90, 30_encoding.md R92). -/
def Obligations.ImmediateTokensAreMaskedToTheirField : Prop :=
  ∀ (table : LabelTable) (width v line word : Nat) (name : List Char),
    operandValue table (.immediate width) ⟨.numeric v, line, word⟩ = .ok (v % 2 ^ width) ∧
    (∃ r, operandValue table (.immediate width) ⟨.signed v, line, word⟩ = .ok r ∧
      (r : Int) = (-(v : Int)) % 2 ^ width) ∧
    (∀ (digits : List Char) (h : Nat), hexValue digits = some h →
      operandValue table (.immediate width) ⟨.hex digits, line, word⟩ = .ok (h % 2 ^ width)) ∧
    hexValue (Nat.toDigits 16 v) = some v ∧ hexValue ((Nat.toDigits 16 v).map Char.toUpper) = some v ∧
    (∀ (digits : List Char) (c : Char) (h d : Nat), hexValue digits = some h → hexDigit c = some d →
      hexValue (digits ++ [c]) = some (h * 16 + d)) ∧
    operandValue table (.immediate width) ⟨.identifier name, line, word⟩ =
      match table.offset name with
      | some offset => .ok (offset % 2 ^ width)
      | none => .error ⟨.unresolvedLabel, line, word⟩

/-- A label's offset is four times the number of OPCODE tokens before its declaration (30_encoding.md R88). -/
def Obligations.LabelsAreFourTimesTheOpcodesBefore : Prop :=
  ∀ (before after : List Token) (t : Token) (name : List Char) (table : LabelTable),
    t.kind = .label name → labelPass 0 [] (before ++ t :: after) = .ok table →
    table.offset name = some (4 * before.countP Token.isOpcode)

/-- Which condition raises which cause code with which FAULT_INFO, and no other. The clauses on extended maps are the
model's reading, log entry 3 (DEDUCED) (60_exceptions.md R211, 60_exceptions.md R213, 20_memory.md R47). -/
def Obligations.FaultCausesFollowTheirTable : Prop :=
  ∀ (s t : State) (n : Nat), step s = .next t →
    (EndsFaulted t 1 n ↔ Fetches s ∧ s.cfg.opcodeMap.classify (opcodeByte (wordAtPc s)) = none ∧
      n = (opcodeByte (wordAtPc s)).toNat) ∧
    (EndsFaulted t 2 n ↔ Fetches s ∧ ∃ sh j v, s.cfg.opcodeMap.classify (opcodeByte (wordAtPc s)) = some sh ∧
      firstIllegalRegister sh (wordAtPc s) = some (j, v) ∧ n = j * 2 ^ 16 + v) ∧
    (EndsFaulted t 3 n ↔ Fetches s ∧ n = 0 ∧ ∃ rd rs1 rs2, s.reg rs2 = 0#32 ∧
      (decode s.cfg.opcodeMap (wordAtPc s) = .ok (.div rd rs1 rs2) ∨
        decode s.cfg.opcodeMap (wordAtPc s) = .ok (.rem rd rs1 rs2))) ∧
    (EndsFaulted t 4 n ↔ Fetches s ∧ ∃ width r base imm, n = addressOf width s base imm ∧ s.cfg.memSize ≤ n ∧
      (decode s.cfg.opcodeMap (wordAtPc s) = .ok (loadOf width r base imm) ∨
        decode s.cfg.opcodeMap (wordAtPc s) = .ok (storeOf width r base imm))) ∧
    (EndsFaulted t 5 n ↔ s.status = .running ∧ s.pc < s.cfg.imemLen ∧
      (∀ cap, s.cfg.maxSteps = some cap → s.retired < cap) ∧ s.pc % 4 ≠ 0 ∧ n = s.pc) ∧
    (EndsFaulted t 6 n ↔ Fetches s ∧ ∃ sh, s.cfg.opcodeMap.slot (opcodeByte (wordAtPc s)) = .extension sh ∧
      firstIllegalRegister sh (wordAtPc s) = none ∧ n = (opcodeByte (wordAtPc s)).toNat) ∧
    (s.cfg.opcodeMap.extensions = [] → ¬ EndsFaulted t 6 n)
end

