-- ==== Sys2Proof/Laws/Alu.lean ====
section
/-!
SUPPORT. The operand forms, the comparisons and the ALU results as the rules write them: the shift amounts
uncut, the signed reading as `BitVec.toInt`, the masks as remainders.
-/

namespace Sys2Proof.Laws

open Sys2Proof.Machine

@[simp] theorem zext_eq {n : Nat} (v : BitVec n) : zext v = v.toNat := rfl

/-- `sext_N` in the form of spec/00_scope.md R10. -/
theorem sext_eq {n : Nat} (v : BitVec n) :
    sext v = v.toNat + if v.msb then 2 ^ 32 - 2 ^ n else 0 := rfl

/-- A sign-extended 8-bit field is below 2^32. -/
theorem sext8_lt (v : BitVec 8) : sext v < 2 ^ 32 := by
  have := v.isLt
  unfold sext
  split <;> omega

/-- A negative 8-bit offset is at least 2^32 − 128 (spec/43_load_store.md R171). -/
theorem sext8_negative (v : BitVec 8) (h : 0x80 ≤ v.toNat) : sext v = 2 ^ 32 - 2 ^ 8 + v.toNat := by
  have hm : v.msb = true := by simpa [BitVec.msb_eq_decide] using h
  simp only [sext, hm, if_true]
  omega

/-- `signed32` is the two's-complement reading (spec/00_scope.md R9). -/
theorem signed32_eq_toInt (v : Word) : signed32 v = v.toInt := by
  have := v.isLt
  simp only [signed32, BitVec.toInt_eq_toNat_cond]
  split <;> split <;> omega

/-- The mask of an access of `n` bits, as a number. -/
theorem mask_toNat (w : Width) (v : Word) : (w.mask v).toNat = v.toNat % 2 ^ w.bits := by
  have h := v.isLt
  have h1 : v.toNat % 2 ^ w.bits ≤ v.toNat := Nat.mod_le _ _
  simp only [Width.mask, BitVec.toNat_ofNat]
  exact Nat.mod_eq_of_lt (by omega)

theorem mask_byte (v : Word) : Width.byte.mask v = u32 (v.toNat % 2 ^ 8) := rfl
theorem mask_half (v : Word) : Width.half.mask v = u32 (v.toNat % 2 ^ 16) := rfl

/-- A word access moves the whole cell. -/
@[simp] theorem mask_word (v : Word) : Width.word.mask v = v := by
  apply BitVec.eq_of_toNat_eq
  rw [mask_toNat]
  exact Nat.mod_eq_of_lt v.isLt

/-- SLL with the amount uncut (spec/41_alu_register.md R130). -/
theorem shiftLeft_eq (a : Word) (s : Nat) : shiftLeft a s = u32 (a.toNat * 2 ^ s) := by
  unfold shiftLeft shiftAmount
  rcases Nat.lt_or_ge s 32 with h | h
  · rw [Nat.min_eq_left (by omega)]
  · rw [Nat.min_eq_right h]
    apply BitVec.eq_of_toNat_eq
    obtain ⟨k, rfl⟩ := Nat.exists_eq_add_of_le h
    simp [Nat.pow_add, ← Nat.mul_assoc, Nat.mul_right_comm, Nat.mul_mod_left]

theorem div_pow_shiftAmount (x s : Nat) (hx : x < 2 ^ 32) : x / 2 ^ shiftAmount s = x / 2 ^ s := by
  unfold shiftAmount
  rcases Nat.lt_or_ge s 32 with h | h
  · rw [Nat.min_eq_left (by omega)]
  · rw [Nat.min_eq_right h, Nat.div_eq_of_lt hx,
      Nat.div_eq_of_lt (Nat.lt_of_lt_of_le hx (Nat.pow_le_pow_right (by omega) h))]

/-- SRL with the amount uncut (spec/41_alu_register.md R131). -/
theorem shiftRight_eq (a : Word) (s : Nat) : shiftRight a s = u32 (a.toNat / 2 ^ s) := by
  unfold shiftRight
  rw [div_pow_shiftAmount _ _ a.isLt]

theorem fdiv_pow_shiftAmount (x : Int) (s : Nat) (hlo : -2 ^ 32 ≤ x) (hhi : x < 0) :
    x.fdiv ((2 ^ shiftAmount s : Nat) : Int) = x.fdiv ((2 ^ s : Nat) : Int) := by
  unfold shiftAmount
  rcases Nat.lt_or_ge s 32 with h | h
  · rw [Nat.min_eq_left (by omega)]
  · have key : ∀ k : Nat, 32 ≤ k → x.fdiv ((2 ^ k : Nat) : Int) = -1 := by
      intro k hk
      have hp : (2 : Nat) ^ 32 ≤ 2 ^ k := Nat.pow_le_pow_right (by omega) hk
      rw [Int.fdiv_eq_ediv_of_nonneg _ (Int.natCast_nonneg _)]
      apply Int.ediv_eq_neg_one_of_neg_of_le hhi
      omega
    rw [Nat.min_eq_right h, key 32 (Nat.le_refl _), key s h]

/-- SRA of a non-negative value is SRL (spec/41_alu_register.md R132 (e)). -/
theorem shiftRightArith_nonneg (mode : SraMode) (a : Word) (s : Nat) (h : a.msb = false) :
    shiftRightArith mode a s = u32 (a.toNat / 2 ^ s) := by
  unfold shiftRightArith
  rw [if_pos h, shiftRight_eq]

/-- SRA of a negative value under MAGNITUDE, the amount uncut (spec/41_alu_register.md R132). -/
theorem shiftRightArith_magnitude (a : Word) (s : Nat) (h : a.msb = true) :
    shiftRightArith .magnitude a s = u32OfInt (-(((2 ^ 32 - a.toNat) / 2 ^ s : Nat) : Int)) := by
  have hlt := a.isLt
  have hge : 2 ^ 31 ≤ a.toNat := by simpa [BitVec.msb_eq_decide] using h
  unfold shiftRightArith
  rw [if_neg (by simp [h])]
  simp only []
  rw [div_pow_shiftAmount _ s (by omega)]

/-- SRA of a negative value under FLOOR, the amount uncut (spec/41_alu_register.md R132). -/
theorem shiftRightArith_floor (a : Word) (s : Nat) (h : a.msb = true) :
    shiftRightArith .floor a s = u32OfInt ((signed32 a).fdiv ((2 ^ s : Nat) : Int)) := by
  have hlt := a.isLt
  have hge : 2 ^ 31 ≤ a.toNat := by simpa [BitVec.msb_eq_decide] using h
  unfold shiftRightArith
  rw [if_neg (by simp [h])]
  simp only []
  rw [fdiv_pow_shiftAmount]
  · simp only [signed32]; split <;> omega
  · simp only [signed32]; split <;> omega

end Sys2Proof.Laws
end

