-- ==== Sys2Proof/Laws/Decode.lean ====
section
/-!
SUPPORT. The laws of the opcode map, the fields and the register checks.
-/

namespace Sys2Proof

theorem Mnemonic.mem_all (op : Mnemonic) : op ∈ Mnemonic.all := by
  cases op <;> decide

/-- The default map gives each mnemonic its default byte. -/
theorem byteOf_default (op : Mnemonic) : OpcodeMap.default.byteOf op = op.defaultByte := by
  cases op <;> rfl

/-- An injective map gives different mnemonics different bytes (spec/30_encoding.md R71 (a)). -/
theorem OpcodeMap.byteOf_inj {m : OpcodeMap} (h : m.injective = true) {a b : Mnemonic}
    (hab : m.byteOf a = m.byteOf b) : a = b :=
  List.inj_on_of_nodup_map (of_decide_eq_true h) (Mnemonic.mem_all a) (Mnemonic.mem_all b) hab

/-- Under an injective map a mnemonic's byte is looked up as that mnemonic. -/
theorem OpcodeMap.slot_byteOf {m : OpcodeMap} (h : m.injective = true) (op : Mnemonic) :
    m.slot (m.byteOf op) = .core op := by
  unfold OpcodeMap.slot
  cases hf : Mnemonic.all.find? fun op' => m.byteOf op' == m.byteOf op with
  | none =>
    have := List.find?_eq_none.mp hf op (Mnemonic.mem_all op)
    simp at this
  | some op' =>
    have := List.find?_some hf
    rw [m.byteOf_inj h (beq_iff_eq.mp this)]

/-- A byte looked up as a mnemonic is that mnemonic's byte. -/
theorem OpcodeMap.byteOf_of_slot {m : OpcodeMap} {b : Byte} {op : Mnemonic} (h : m.slot b = .core op) :
    m.byteOf op = b := by
  unfold OpcodeMap.slot at h
  split at h
  · rename_i op' hf
    cases h
    have := List.find?_some hf
    exact beq_iff_eq.mp this
  · split at h <;> cases h

theorem OpcodeMap.wellFormed_injective {m : OpcodeMap} (h : m.wellFormed = true) : m.injective = true := by
  simp only [OpcodeMap.wellFormed, Bool.and_eq_true] at h
  exact h.1.1.1.1

/-- A legal register field decodes to its register. -/
theorem regField_ok {k v : Nat} (h : v < 32) : regField k v = .ok ⟨v, h⟩ := by
  simp [regField, h]

/-- A register field of 32 or more is rejected by field number and value. -/
theorem regField_error {k v : Nat} (h : 32 ≤ v) : regField k v = .error (.illegalRegister k v) := by
  simp [regField, Nat.not_lt.mpr h]

/-- `Fetch`'s formula: the first byte is the most significant (spec/20_memory.md R42). -/
theorem wordOfBytes_toNat (b0 b1 b2 b3 : Byte) :
    (wordOfBytes b0 b1 b2 b3).toNat =
      b0.toNat * 2 ^ 24 + b1.toNat * 2 ^ 16 + b2.toNat * 2 ^ 8 + b3.toNat := by
  have h1 := b1.isLt
  have h2 := b2.isLt
  have h3 := b3.isLt
  unfold wordOfBytes
  simp only [BitVec.toNat_append]
  rw [← Nat.shiftLeft_add_eq_or_of_lt h3, ← Nat.shiftLeft_add_eq_or_of_lt h2,
    ← Nat.shiftLeft_add_eq_or_of_lt h1]
  simp only [Nat.shiftLeft_eq]
  omega

/-- A word is the concatenation of its four bytes. -/
theorem wordOfBytes_bytes (w : Word) :
    wordOfBytes (w.extractLsb' 24 8) (w.extractLsb' 16 8) (w.extractLsb' 8 8) (w.extractLsb' 0 8) = w := by
  apply BitVec.eq_of_toNat_eq
  have := w.isLt
  rw [wordOfBytes_toNat]
  simp only [BitVec.extractLsb'_toNat, Nat.shiftRight_eq_div_pow]
  omega

/-- Decoding the four bytes of a word is decoding the word. -/
theorem decodeBytes_bytesOfWord (m : OpcodeMap) (w : Word) (rest : List Byte) :
    decodeBytes m (bytesOfWord w ++ rest) = (decode m w).map fun i => (i, rest) := by
  simp only [bytesOfWord, List.cons_append, List.nil_append, decodeBytes, wordOfBytes_bytes]
  cases decode m w <;> rfl

end Sys2Proof
end

