-- ==== Sys2Proof/Laws/Memory.lean ====
section
/-!
SUPPORT. The laws of sparse memories: a read after a write, and the canonical form that every memory
operation keeps.
-/

namespace Sys2Proof

variable {n : Nat}

@[simp] theorem Memory.read_nil (a : Nat) : Memory.read ([] : Memory n) a = 0#n := rfl

theorem Memory.read_write (m : Memory n) (a b : Nat) (v : BitVec n) (hm : Memory.wf m = true) :
    Memory.read (Memory.write m a v) b = if b = a then v else Memory.read m b := by
  suffices h : ∀ (m : Memory n) (lo : Nat), Memory.risingFrom lo m = true →
      (Memory.read (Memory.write m a v) b = if b = a then v else Memory.read m b) ∧
        (∀ c, c < lo → Memory.read m c = 0#n) from (h m 0 hm).1
  intro m
  induction m with
  | nil =>
    intro lo _
    refine ⟨?_, fun c _ => rfl⟩
    by_cases hv : v = 0#n <;> by_cases hb : b = a <;> simp [Memory.write, Memory.read, hv, hb, Ne.symm]
  | cons cell rest ih =>
    obtain ⟨k, x⟩ := cell
    intro lo h
    simp only [Memory.risingFrom, Bool.and_eq_true, decide_eq_true_eq] at h
    obtain ⟨⟨hlo, hx⟩, hrest⟩ := h
    obtain ⟨ihw, ihlo⟩ := ih (k + 1) hrest
    refine ⟨?_, fun c hc => ?_⟩
    · simp only [Memory.write]
      rcases Nat.lt_trichotomy a k with hak | hak | hak
      · rw [if_pos hak]
        by_cases hv : v = 0#n
        · rw [if_pos hv]
          by_cases hb : b = a
          · subst hb
            simp [Memory.read, show ¬ k = b by omega, ihlo b (by omega), hv]
          · simp [hb]
        · rw [if_neg hv]
          by_cases hb : b = a
          · simp [Memory.read, hb]
          · simp [Memory.read, hb, Ne.symm hb]
      · subst hak
        rw [if_neg (Nat.lt_irrefl _), if_pos rfl]
        by_cases hv : v = 0#n
        · rw [if_pos hv]
          by_cases hb : b = a
          · subst hb
            simp [ihlo b (by omega), hv]
          · simp [Memory.read, hb, Ne.symm hb]
        · rw [if_neg hv]
          by_cases hb : b = a
          · simp [Memory.read, hb]
          · simp [Memory.read, hb, Ne.symm hb]
      · rw [if_neg (by omega), if_neg (by omega)]
        simp only [Memory.read]
        by_cases hb : k = b
        · subst hb
          simp [show ¬ k = a by omega]
        · simp [hb, ihw]
    · simp [Memory.read, show ¬ k = c by omega, ihlo c (by omega)]

/-- A read after a write to the same address gives the value written. -/
theorem Memory.read_write_same (m : Memory n) (a : Nat) (v : BitVec n) (hm : Memory.wf m = true) :
    Memory.read (Memory.write m a v) a = v := by
  simp [Memory.read_write m a a v hm]

/-- A write leaves every other address alone, whatever the form of the list. -/
theorem Memory.read_write_other (m : Memory n) (a b : Nat) (v : BitVec n) (h : b ≠ a) :
    Memory.read (Memory.write m a v) b = Memory.read m b := by
  induction m with
  | nil => by_cases hv : v = 0#n <;> simp [Memory.write, Memory.read, hv, Ne.symm h]
  | cons cell rest ih =>
    obtain ⟨k, x⟩ := cell
    simp only [Memory.write]
    split_ifs with h1 h2 h3 h4
    · rfl
    · simp [Memory.read, Ne.symm h]
    · simp [Memory.read, show ¬ k = b by omega]
    · simp [Memory.read, Ne.symm h, show ¬ k = b by omega]
    · simp only [Memory.read, ih]

theorem Memory.risingFrom_mono (m : Memory n) (lo hi : Nat) (h : lo ≤ hi)
    (hm : Memory.risingFrom hi m = true) : Memory.risingFrom lo m = true := by
  cases m with
  | nil => rfl
  | cons cell rest =>
    simp only [Memory.risingFrom, Bool.and_eq_true, decide_eq_true_eq] at hm ⊢
    exact ⟨⟨by omega, hm.1.2⟩, hm.2⟩

theorem Memory.risingFrom_write (m : Memory n) (lo a : Nat) (v : BitVec n) (ha : lo ≤ a)
    (hm : Memory.risingFrom lo m = true) : Memory.risingFrom lo (Memory.write m a v) = true := by
  induction m generalizing lo with
  | nil => by_cases hv : v = 0#n <;> simp [Memory.write, Memory.risingFrom, hv, ha]
  | cons cell rest ih =>
    obtain ⟨k, x⟩ := cell
    simp only [Memory.risingFrom, Bool.and_eq_true, decide_eq_true_eq] at hm
    obtain ⟨⟨hlo, hx⟩, hrest⟩ := hm
    simp only [Memory.write]
    split_ifs with h1 hv h2 hv
    · simp [Memory.risingFrom, hlo, hx, hrest]
    · simp [Memory.risingFrom, ha, hv, hx, hrest, show a + 1 ≤ k by omega]
    · exact Memory.risingFrom_mono rest lo (k + 1) (by omega) hrest
    · subst h2
      simp [Memory.risingFrom, ha, hv, hrest]
    · simp [Memory.risingFrom, hlo, hx, ih (k + 1) (by omega) hrest]

/-- A write keeps the canonical form. -/
theorem Memory.wf_write (m : Memory n) (a : Nat) (v : BitVec n) (hm : Memory.wf m = true) :
    Memory.wf (Memory.write m a v) = true :=
  Memory.risingFrom_write m 0 a v (Nat.zero_le a) hm

/-- A write below `size` keeps every listed address below `size`. -/
theorem Memory.within_write (m : Memory n) (size a : Nat) (v : BitVec n) (ha : a < size)
    (hm : Memory.within size m = true) : Memory.within size (Memory.write m a v) = true := by
  induction m with
  | nil => by_cases hv : v = 0#n <;> simp [Memory.write, Memory.within, hv, ha]
  | cons cell rest ih =>
    obtain ⟨k, x⟩ := cell
    simp only [Memory.within, List.all_cons, Bool.and_eq_true, decide_eq_true_eq] at hm ih ⊢
    simp only [Memory.write]
    split_ifs
    · simpa using hm
    · simpa [ha] using hm
    · simpa using hm.2
    · simpa [ha] using hm.2
    · simpa [hm.1] using ih hm.2

/-- A list of writes keeps the canonical form. -/
theorem Memory.wf_writeList (m : Memory n) (a : Nat) (vs : List (BitVec n)) (hm : Memory.wf m = true) :
    Memory.wf (Memory.writeList m a vs) = true := by
  induction vs generalizing m a with
  | nil => exact hm
  | cons v rest ih => exact ih _ _ (Memory.wf_write m a v hm)

theorem Memory.read_below (m : Memory n) (lo a : Nat) (hm : Memory.risingFrom lo m = true) (ha : a < lo) :
    Memory.read m a = 0#n := by
  induction m generalizing lo with
  | nil => rfl
  | cons cell rest ih =>
    obtain ⟨k, x⟩ := cell
    simp only [Memory.risingFrom, Bool.and_eq_true, decide_eq_true_eq] at hm
    simp [Memory.read, show ¬ k = a by omega, ih (k + 1) hm.2 (by omega)]

/-- Equal memories are equal lists: two canonical memories that read alike at every address are one list. -/
theorem Memory.ext_of_read (m₁ m₂ : Memory n) (h₁ : Memory.wf m₁ = true) (h₂ : Memory.wf m₂ = true)
    (h : ∀ a, Memory.read m₁ a = Memory.read m₂ a) : m₁ = m₂ := by
  suffices H : ∀ (m₁ m₂ : Memory n) (lo₁ lo₂ : Nat), Memory.risingFrom lo₁ m₁ = true →
      Memory.risingFrom lo₂ m₂ = true → (∀ a, Memory.read m₁ a = Memory.read m₂ a) → m₁ = m₂ from
    H m₁ m₂ 0 0 h₁ h₂ h
  intro m₁
  induction m₁ with
  | nil =>
    intro m₂ lo₁ lo₂ _ h₂ h
    cases m₂ with
    | nil => rfl
    | cons cell rest =>
      simp only [Memory.risingFrom, Bool.and_eq_true, decide_eq_true_eq] at h₂
      exact absurd (by simpa [Memory.read] using (h cell.1).symm) h₂.1.2
  | cons cell₁ rest₁ ih =>
    intro m₂ lo₁ lo₂ h₁ h₂ h
    simp only [Memory.risingFrom, Bool.and_eq_true, decide_eq_true_eq] at h₁
    cases m₂ with
    | nil => exact absurd (by simpa [Memory.read] using h cell₁.1) h₁.1.2
    | cons cell₂ rest₂ =>
      obtain ⟨k₁, x₁⟩ := cell₁
      obtain ⟨k₂, x₂⟩ := cell₂
      simp only [Memory.risingFrom, Bool.and_eq_true, decide_eq_true_eq] at h₂
      have hk : k₁ = k₂ := by
        rcases Nat.lt_trichotomy k₁ k₂ with hlt | heq | hlt
        · have := h k₁
          rw [Memory.read, if_pos rfl, Memory.read, if_neg (by omega),
            Memory.read_below rest₂ (k₂ + 1) k₁ h₂.2 (by omega)] at this
          exact absurd this h₁.1.2
        · exact heq
        · have := h k₂
          rw [Memory.read, if_neg (by omega), Memory.read, if_pos rfl,
            Memory.read_below rest₁ (k₁ + 1) k₂ h₁.2 (by omega)] at this
          exact absurd this.symm h₂.1.2
      subst hk
      have hx : x₁ = x₂ := by simpa [Memory.read] using h k₁
      subst hx
      rw [ih rest₂ (k₁ + 1) (k₁ + 1) h₁.2 h₂.2 fun a => ?_]
      by_cases ha : k₁ = a
      · subst ha
        rw [Memory.read_below rest₁ _ _ h₁.2 (Nat.lt_succ_self _),
          Memory.read_below rest₂ _ _ h₂.2 (Nat.lt_succ_self _)]
      · simpa [Memory.read, ha] using h a

end Sys2Proof
end

