-- ==== Sys2Proof/Laws/State.lean ====
section
/-!
SUPPORT. The small lemmas of the state: one for each field of each update.
-/

namespace Sys2Proof.Machine

@[simp] theorem raiseFault_cfg (s : State) (f : Raised) :
    (raiseFault s f).cfg = s.cfg := rfl

@[simp] theorem raiseFault_regs (s : State) (f : Raised) :
    (raiseFault s f).regs = s.regs := rfl

@[simp] theorem raiseFault_pc (s : State) (f : Raised) :
    (raiseFault s f).pc = s.pc := rfl

@[simp] theorem raiseFault_status (s : State) (f : Raised) :
    (raiseFault s f).status = .faulted := rfl

@[simp] theorem raiseFault_faultCause (s : State) (f : Raised) :
    (raiseFault s f).faultCause = f.cause := rfl

@[simp] theorem raiseFault_faultPc (s : State) (f : Raised) :
    (raiseFault s f).faultPc = s.pc := rfl

@[simp] theorem raiseFault_faultInfo (s : State) (f : Raised) :
    (raiseFault s f).faultInfo = f.info := rfl

@[simp] theorem raiseFault_retired (s : State) (f : Raised) :
    (raiseFault s f).retired = s.retired := rfl

@[simp] theorem raiseFault_dmem (s : State) (f : Raised) :
    (raiseFault s f).dmem = s.dmem := rfl

@[simp] theorem haltWith_cfg (s : State) (st : Status) :
    (haltWith s st).cfg = s.cfg := rfl

@[simp] theorem haltWith_regs (s : State) (st : Status) :
    (haltWith s st).regs = s.regs := rfl

@[simp] theorem haltWith_pc (s : State) (st : Status) :
    (haltWith s st).pc = s.pc := rfl

@[simp] theorem haltWith_status (s : State) (st : Status) :
    (haltWith s st).status = st := rfl

@[simp] theorem haltWith_faultCause (s : State) (st : Status) :
    (haltWith s st).faultCause = s.faultCause := rfl

@[simp] theorem haltWith_faultPc (s : State) (st : Status) :
    (haltWith s st).faultPc = s.faultPc := rfl

@[simp] theorem haltWith_faultInfo (s : State) (st : Status) :
    (haltWith s st).faultInfo = s.faultInfo := rfl

@[simp] theorem haltWith_retired (s : State) (st : Status) :
    (haltWith s st).retired = s.retired := rfl

@[simp] theorem haltWith_dmem (s : State) (st : Status) :
    (haltWith s st).dmem = s.dmem := rfl

@[simp] theorem memWrite_cfg (s : State) (a : Nat) (w : Width) (v : Word) :
    (memWrite s a w v).cfg = s.cfg := rfl

@[simp] theorem memWrite_regs (s : State) (a : Nat) (w : Width) (v : Word) :
    (memWrite s a w v).regs = s.regs := rfl

@[simp] theorem memWrite_pc (s : State) (a : Nat) (w : Width) (v : Word) :
    (memWrite s a w v).pc = s.pc := rfl

@[simp] theorem memWrite_status (s : State) (a : Nat) (w : Width) (v : Word) :
    (memWrite s a w v).status = s.status := rfl

@[simp] theorem memWrite_faultCause (s : State) (a : Nat) (w : Width) (v : Word) :
    (memWrite s a w v).faultCause = s.faultCause := rfl

@[simp] theorem memWrite_faultPc (s : State) (a : Nat) (w : Width) (v : Word) :
    (memWrite s a w v).faultPc = s.faultPc := rfl

@[simp] theorem memWrite_faultInfo (s : State) (a : Nat) (w : Width) (v : Word) :
    (memWrite s a w v).faultInfo = s.faultInfo := rfl

@[simp] theorem memWrite_retired (s : State) (a : Nat) (w : Width) (v : Word) :
    (memWrite s a w v).retired = s.retired := rfl

@[simp] theorem memWrite_dmem (s : State) (a : Nat) (w : Width) (v : Word) :
    (memWrite s a w v).dmem = Memory.write s.dmem a (w.mask v) := rfl

@[simp] theorem setReg_cfg (s : State) (i : Reg) (v : Word) :
    (s.setReg i v).cfg = s.cfg := by
  unfold State.setReg; split <;> rfl

@[simp] theorem setReg_pc (s : State) (i : Reg) (v : Word) :
    (s.setReg i v).pc = s.pc := by
  unfold State.setReg; split <;> rfl

@[simp] theorem setReg_status (s : State) (i : Reg) (v : Word) :
    (s.setReg i v).status = s.status := by
  unfold State.setReg; split <;> rfl

@[simp] theorem setReg_faultCause (s : State) (i : Reg) (v : Word) :
    (s.setReg i v).faultCause = s.faultCause := by
  unfold State.setReg; split <;> rfl

@[simp] theorem setReg_faultPc (s : State) (i : Reg) (v : Word) :
    (s.setReg i v).faultPc = s.faultPc := by
  unfold State.setReg; split <;> rfl

@[simp] theorem setReg_faultInfo (s : State) (i : Reg) (v : Word) :
    (s.setReg i v).faultInfo = s.faultInfo := by
  unfold State.setReg; split <;> rfl

@[simp] theorem setReg_retired (s : State) (i : Reg) (v : Word) :
    (s.setReg i v).retired = s.retired := by
  unfold State.setReg; split <;> rfl

@[simp] theorem setReg_dmem (s : State) (i : Reg) (v : Word) :
    (s.setReg i v).dmem = s.dmem := by
  unfold State.setReg; split <;> rfl

@[simp] theorem commitReg_cfg (s : State) (w : Option (Reg × Word)) :
    (commitReg s w).cfg = s.cfg := by
  cases w <;> simp [commitReg]

@[simp] theorem commitReg_pc (s : State) (w : Option (Reg × Word)) :
    (commitReg s w).pc = s.pc := by
  cases w <;> simp [commitReg]

@[simp] theorem commitReg_status (s : State) (w : Option (Reg × Word)) :
    (commitReg s w).status = s.status := by
  cases w <;> simp [commitReg]

@[simp] theorem commitReg_faultCause (s : State) (w : Option (Reg × Word)) :
    (commitReg s w).faultCause = s.faultCause := by
  cases w <;> simp [commitReg]

@[simp] theorem commitReg_faultPc (s : State) (w : Option (Reg × Word)) :
    (commitReg s w).faultPc = s.faultPc := by
  cases w <;> simp [commitReg]

@[simp] theorem commitReg_faultInfo (s : State) (w : Option (Reg × Word)) :
    (commitReg s w).faultInfo = s.faultInfo := by
  cases w <;> simp [commitReg]

@[simp] theorem commitReg_retired (s : State) (w : Option (Reg × Word)) :
    (commitReg s w).retired = s.retired := by
  cases w <;> simp [commitReg]

@[simp] theorem commitReg_dmem (s : State) (w : Option (Reg × Word)) :
    (commitReg s w).dmem = s.dmem := by
  cases w <;> simp [commitReg]

@[simp] theorem commitMem_cfg (s : State) (w : Option (Nat × Width × Word)) :
    (commitMem s w).cfg = s.cfg := by
  cases w <;> simp [commitMem]

@[simp] theorem commitMem_regs (s : State) (w : Option (Nat × Width × Word)) :
    (commitMem s w).regs = s.regs := by
  cases w <;> simp [commitMem]

@[simp] theorem commitMem_pc (s : State) (w : Option (Nat × Width × Word)) :
    (commitMem s w).pc = s.pc := by
  cases w <;> simp [commitMem]

@[simp] theorem commitMem_status (s : State) (w : Option (Nat × Width × Word)) :
    (commitMem s w).status = s.status := by
  cases w <;> simp [commitMem]

@[simp] theorem commitMem_faultCause (s : State) (w : Option (Nat × Width × Word)) :
    (commitMem s w).faultCause = s.faultCause := by
  cases w <;> simp [commitMem]

@[simp] theorem commitMem_faultPc (s : State) (w : Option (Nat × Width × Word)) :
    (commitMem s w).faultPc = s.faultPc := by
  cases w <;> simp [commitMem]

@[simp] theorem commitMem_faultInfo (s : State) (w : Option (Nat × Width × Word)) :
    (commitMem s w).faultInfo = s.faultInfo := by
  cases w <;> simp [commitMem]

@[simp] theorem commitMem_retired (s : State) (w : Option (Nat × Width × Word)) :
    (commitMem s w).retired = s.retired := by
  cases w <;> simp [commitMem]

@[simp] theorem commit_cfg (s : State) (e : Effect) :
    (commit s e).cfg = s.cfg := by
  simp [commit]

@[simp] theorem commit_regs (s : State) (e : Effect) :
    (commit s e).regs = (commitReg s e.regw).regs := by
  simp [commit]

@[simp] theorem commit_pc (s : State) (e : Effect) :
    (commit s e).pc = nextPc s.pc e.jump := rfl

@[simp] theorem commit_status (s : State) (e : Effect) :
    (commit s e).status = s.status := by
  simp [commit]

@[simp] theorem commit_faultCause (s : State) (e : Effect) :
    (commit s e).faultCause = s.faultCause := by
  simp [commit]

@[simp] theorem commit_faultPc (s : State) (e : Effect) :
    (commit s e).faultPc = s.faultPc := by
  simp [commit]

@[simp] theorem commit_faultInfo (s : State) (e : Effect) :
    (commit s e).faultInfo = s.faultInfo := by
  simp [commit]

@[simp] theorem commit_retired (s : State) (e : Effect) :
    (commit s e).retired = s.retired + 1 := rfl

@[simp] theorem commit_dmem (s : State) (e : Effect) :
    (commit s e).dmem = (commitMem s e.memw).dmem := by
  cases h : e.memw <;> simp [commit, commitMem, h]

@[simp] theorem ofConfig_cfg (c : Config) :
    (State.ofConfig c).cfg = c := rfl

@[simp] theorem ofConfig_regs (c : Config) :
    (State.ofConfig c).regs = Vector.replicate 32 0#32 := rfl

@[simp] theorem ofConfig_pc (c : Config) :
    (State.ofConfig c).pc = 0 := rfl

@[simp] theorem ofConfig_status (c : Config) :
    (State.ofConfig c).status = .running := rfl

@[simp] theorem ofConfig_faultCause (c : Config) :
    (State.ofConfig c).faultCause = .noFault := rfl

@[simp] theorem ofConfig_faultPc (c : Config) :
    (State.ofConfig c).faultPc = 0 := rfl

@[simp] theorem ofConfig_faultInfo (c : Config) :
    (State.ofConfig c).faultInfo = 0 := rfl

@[simp] theorem ofConfig_retired (c : Config) :
    (State.ofConfig c).retired = 0 := rfl

@[simp] theorem ofConfig_dmem (c : Config) :
    (State.ofConfig c).dmem = c.memInit := rfl

/-! ### Registers (spec/10_state.md R21, R22) -/

@[simp] theorem reg_zero (s : State) : s.reg 0 = 0#32 := rfl

/-- What a register reads after a write: r0 reads 0, the destination its new value, the others as before. -/
theorem reg_setReg (s : State) (i j : Reg) (v : Word) :
    (s.setReg i v).reg j = if j = 0 then 0#32 else if j = i then v else s.reg j := by
  unfold State.setReg State.reg
  by_cases hj : j = 0
  · simp [hj]
  · by_cases hi : i = 0
    · subst hi
      simp [hj]
    · by_cases hij : j = i
      · subst hij
        simp [hj]
      · have hval : i.val ≠ j.val := fun h => hij (Fin.ext h.symm)
        simp [hj, hi, hij, Vector.getElem_set_ne, hval]

/-- Reading a register depends on the register file alone. -/
theorem reg_congr {s t : State} (h : s.regs = t.regs) (i : Reg) : s.reg i = t.reg i := by
  unfold State.reg
  rw [h]

@[simp] theorem reg_raiseFault (s : State) (f : Raised) (i : Reg) : (raiseFault s f).reg i = s.reg i := rfl

@[simp] theorem reg_haltWith (s : State) (st : Status) (i : Reg) : (haltWith s st).reg i = s.reg i := rfl

@[simp] theorem reg_memWrite (s : State) (a : Nat) (w : Width) (v : Word) (i : Reg) :
    (memWrite s a w v).reg i = s.reg i := rfl

@[simp] theorem reg_commitMem (s : State) (w : Option (Nat × Width × Word)) (i : Reg) :
    (commitMem s w).reg i = s.reg i :=
  reg_congr (by simp) i

theorem reg_commit (s : State) (e : Effect) (i : Reg) : (commit s e).reg i = (commitReg s e.regw).reg i :=
  reg_congr (by simp) i

@[simp] theorem reg_ofConfig (c : Config) (i : Reg) : (State.ofConfig c).reg i = 0#32 := by
  unfold State.reg
  split
  · rfl
  · simp

/-! ### Cells -/

@[simp] theorem cell_raiseFault (s : State) (f : Raised) (a : Nat) : (raiseFault s f).cell a = s.cell a := rfl

@[simp] theorem cell_haltWith (s : State) (st : Status) (a : Nat) : (haltWith s st).cell a = s.cell a := rfl

theorem cell_congr {s t : State} (h : s.dmem = t.dmem) (a : Nat) : s.cell a = t.cell a := by
  unfold State.cell
  rw [h]

theorem cell_commit (s : State) (e : Effect) (a : Nat) : (commit s e).cell a = (commitMem s e.memw).cell a :=
  cell_congr (by simp) a

/-- A store replaces its cell and leaves every other cell alone (spec/20_memory.md R45). -/
theorem cell_memWrite (s : State) (a b : Nat) (w : Width) (v : Word) (h : Memory.wf s.dmem = true) :
    (memWrite s a w v).cell b = if b = a then w.mask v else s.cell b :=
  Memory.read_write s.dmem a b _ h

/-- A store leaves every other cell alone, whatever the form of the memory. -/
theorem cell_memWrite_other (s : State) (a b : Nat) (w : Width) (v : Word) (h : b ≠ a) :
    (memWrite s a w v).cell b = s.cell b :=
  Memory.read_write_other s.dmem a b _ h

end Sys2Proof.Machine
end

