-- ==== Sys2Proof/Laws/Ops.lean ====
section
/-!
SUPPORT. One lemma for each shared operation, saying once what it can do.
-/

namespace Sys2Proof.Machine

/-- An instruction's end is always a next state: its effect committed, or its fault taken. -/
theorem complete_ok (s : State) (e : Effect) : complete s (.ok e) = .next (commit s e) := rfl

theorem complete_error (s : State) (f : Raised) : complete s (.error f) = .next (raiseFault s f) := rfl

/-- `next_pc` without a jump (spec/40_execution_kernel.md R108). -/
@[simp] theorem nextPc_none (pc : Nat) : nextPc pc none = pc + 4 := rfl

/-- `next_pc` of a transfer to the absolute target `t` (spec/40_execution_kernel.md R108). -/
@[simp] theorem nextPc_target (pc t : Nat) : nextPc pc (some ((t : Int) - 4)) = t := by
  simp [nextPc]

/-- `next_pc` of a jump to the natural number `t` without the compensation (JALR). -/
@[simp] theorem nextPc_natCast (pc t : Nat) : nextPc pc (some (t : Int)) = t + 4 := by
  simp only [nextPc]
  omega

/-- A register after the commit of a register write. -/
theorem reg_commit_some (s : State) (i j : Reg) (v : Word) (mw : Option (Nat × Width × Word))
    (jump : Option Int) :
    (commit s ⟨some (i, v), mw, jump⟩).reg j = if j = 0 then 0#32 else if j = i then v else s.reg j := by
  rw [reg_commit]
  exact reg_setReg s i j v

/-- A register after the commit of an effect that writes none. -/
theorem reg_commit_none (s : State) (j : Reg) (mw : Option (Nat × Width × Word)) (jump : Option Int) :
    (commit s ⟨none, mw, jump⟩).reg j = s.reg j := by
  rw [reg_commit]
  rfl

/-- A cell after the commit of an effect that stores nothing. -/
theorem cell_commit_none (s : State) (a : Nat) (rw' : Option (Reg × Word)) (jump : Option Int) :
    (commit s ⟨rw', none, jump⟩).cell a = s.cell a := by
  rw [cell_commit]
  rfl

/-- A cell after the commit of a store. -/
theorem cell_commit_some (s : State) (a b : Nat) (w : Width) (v : Word) (rw' : Option (Reg × Word))
    (jump : Option Int) :
    (commit s ⟨rw', some (a, w, v), jump⟩).cell b = (memWrite s a w v).cell b := by
  rw [cell_commit]
  rfl

/-- A load answers the fault MEM_RANGE outside the memory, else the register write. -/
theorem loadCell_eq (s : State) (rd : Reg) (ea : Nat) (w : Width) :
    loadCell s rd ea w =
      if s.cfg.memSize ≤ ea then .next (raiseFault s ⟨.memRange, ea⟩)
      else .next (commit s ⟨some (rd, memRead s ea w), none, none⟩) := by
  unfold loadCell
  split <;> rfl

/-- A store answers the fault MEM_RANGE outside the memory, else the cell write. -/
theorem storeCell_eq (s : State) (v : Word) (ea : Nat) (w : Width) :
    storeCell s v ea w =
      if s.cfg.memSize ≤ ea then .next (raiseFault s ⟨.memRange, ea⟩)
      else .next (commit s ⟨none, some (ea, w, v), none⟩) := by
  unfold storeCell
  split <;> rfl

/-- A register result is the commit of one register write. -/
theorem writeResult_eq (s : State) (rd : Reg) (v : Word) :
    writeResult s rd v = .next (commit s ⟨some (rd, v), none, none⟩) := rfl

/-- A branch moves the pc to the absolute target or to the next word, and does nothing else. -/
theorem branch_eq (s : State) (taken : Bool) (imm : BitVec 8) :
    branch s taken imm =
      .next (commit s ⟨none, none, if taken then some ((zext imm : Int) - 4) else none⟩) := rfl

theorem nextPc_branch (pc : Nat) (taken : Bool) (imm : BitVec 8) :
    nextPc pc (if taken then some ((zext imm : Int) - 4) else none) = if taken then imm.toNat else pc + 4 := by
  cases taken <;> simp

end Sys2Proof.Machine
end

