-- ==== Sys2Proof/Laws/PerInstr.lean ====
section
/-!
SUPPORT. A law of every instruction as syntax, one lemma for each constructor: its field values are
well-formed, and its operands are read back from the 24 bits that hold them, whatever the opcode byte.
-/

namespace Sys2Proof.Laws

/-- The law: the raw form keeps the mnemonic, is well-formed (spec/30_encoding.md R61, R69), and the operands
decode from the bits that spell them (spec/30_encoding.md R62, R68). -/
def OperandFields.Statement (i : Instr) : Prop :=
  i.raw.op = i.mnemonic ∧ i.raw.wellFormed = true ∧
    ∀ b : Byte, decodeOperands (b ++ i.raw.fieldBits) i.mnemonic = .ok i

/-! ### The fields of a word put together from its fields -/

theorem field23to16_three (b a c d : BitVec 8) : field23to16 (b ++ (a ++ c ++ d) : BitVec 32) = a := by
  apply BitVec.eq_of_toNat_eq
  have ha := a.isLt; have hc := c.isLt; have hd := d.isLt
  simp only [field23to16, BitVec.extractLsb'_toNat, BitVec.toNat_append, Nat.shiftRight_eq_div_pow]
  rw [← Nat.shiftLeft_add_eq_or_of_lt hc, ← Nat.shiftLeft_add_eq_or_of_lt hd,
    ← Nat.shiftLeft_add_eq_or_of_lt (by simp only [Nat.shiftLeft_eq]; omega)]
  simp only [Nat.shiftLeft_eq]
  omega

theorem field15to8_three (b a c d : BitVec 8) : field15to8 (b ++ (a ++ c ++ d) : BitVec 32) = c := by
  apply BitVec.eq_of_toNat_eq
  have ha := a.isLt; have hc := c.isLt; have hd := d.isLt
  simp only [field15to8, BitVec.extractLsb'_toNat, BitVec.toNat_append, Nat.shiftRight_eq_div_pow]
  rw [← Nat.shiftLeft_add_eq_or_of_lt hc, ← Nat.shiftLeft_add_eq_or_of_lt hd,
    ← Nat.shiftLeft_add_eq_or_of_lt (by simp only [Nat.shiftLeft_eq]; omega)]
  simp only [Nat.shiftLeft_eq]
  omega

theorem field7to0_three (b a c d : BitVec 8) : field7to0 (b ++ (a ++ c ++ d) : BitVec 32) = d := by
  apply BitVec.eq_of_toNat_eq
  have ha := a.isLt; have hc := c.isLt; have hd := d.isLt
  simp only [field7to0, BitVec.extractLsb'_toNat, BitVec.toNat_append, Nat.shiftRight_eq_div_pow]
  rw [← Nat.shiftLeft_add_eq_or_of_lt hc, ← Nat.shiftLeft_add_eq_or_of_lt hd,
    ← Nat.shiftLeft_add_eq_or_of_lt (by simp only [Nat.shiftLeft_eq]; omega)]
  simp only [Nat.shiftLeft_eq]
  omega

theorem field23to16_two (b a : BitVec 8) (c : BitVec 16) : field23to16 (b ++ (a ++ c) : BitVec 32) = a := by
  apply BitVec.eq_of_toNat_eq
  have ha := a.isLt; have hc := c.isLt
  simp only [field23to16, BitVec.extractLsb'_toNat, BitVec.toNat_append, Nat.shiftRight_eq_div_pow]
  rw [← Nat.shiftLeft_add_eq_or_of_lt hc,
    ← Nat.shiftLeft_add_eq_or_of_lt (by simp only [Nat.shiftLeft_eq]; omega)]
  simp only [Nat.shiftLeft_eq]
  omega

theorem field15to0_two (b a : BitVec 8) (c : BitVec 16) : field15to0 (b ++ (a ++ c) : BitVec 32) = c := by
  apply BitVec.eq_of_toNat_eq
  have ha := a.isLt; have hc := c.isLt
  simp only [field15to0, BitVec.extractLsb'_toNat, BitVec.toNat_append, Nat.shiftRight_eq_div_pow]
  rw [← Nat.shiftLeft_add_eq_or_of_lt hc,
    ← Nat.shiftLeft_add_eq_or_of_lt (by simp only [Nat.shiftLeft_eq]; omega)]
  simp only [Nat.shiftLeft_eq]
  omega

theorem field23to0_one (b : BitVec 8) (c : BitVec 24) : field23to0 (b ++ c : BitVec 32) = c := by
  apply BitVec.eq_of_toNat_eq
  have hc := c.isLt
  simp only [field23to0, BitVec.extractLsb'_toNat, BitVec.toNat_append, Nat.shiftRight_eq_div_pow]
  rw [← Nat.shiftLeft_add_eq_or_of_lt hc]
  simp only [Nat.shiftLeft_eq]
  omega

theorem opcodeByte_append (b : BitVec 8) (c : BitVec 24) : opcodeByte (b ++ c : BitVec 32) = b := by
  apply BitVec.eq_of_toNat_eq
  have hb := b.isLt; have hc := c.isLt
  simp only [opcodeByte, BitVec.extractLsb'_toNat, BitVec.toNat_append, Nat.shiftRight_eq_div_pow]
  rw [← Nat.shiftLeft_add_eq_or_of_lt hc]
  simp only [Nat.shiftLeft_eq]
  omega

/-- A register's index survives a field of 5 bits or more. -/
theorem regField_ofNat (k n : Nat) (r : Reg) (hn : 32 ≤ 2 ^ n) :
    regField k (BitVec.ofNat n r.val).toNat = .ok r := by
  have hr := r.isLt
  have : (BitVec.ofNat n r.val).toNat = r.val := by
    simp only [BitVec.toNat_ofNat]
    exact Nat.mod_eq_of_lt (by omega)
  rw [this, regField_ok hr]

/-! ### The law shape by shape -/

theorem dss_wellFormed {op : Mnemonic} (h : op.shape = .dss) (a b c : Reg) :
    (RawInstr.mk op a b c).wellFormed = true := by
  have ha := a.isLt; have hb := b.isLt; have hc := c.isLt
  simp [RawInstr.wellFormed, RawInstr.fieldsFit, RawInstr.registersLegal, h, Shape.fieldWidths,
    Shape.registerFields]
  omega

theorem dsi_wellFormed {op : Mnemonic} (h : op.shape = .dsi) (a b : Reg) (imm : BitVec 8) :
    (RawInstr.mk op a b imm.toNat).wellFormed = true := by
  have ha := a.isLt; have hb := b.isLt; have hc := imm.isLt
  simp [RawInstr.wellFormed, RawInstr.fieldsFit, RawInstr.registersLegal, h, Shape.fieldWidths,
    Shape.registerFields]
  omega

theorem ds_wellFormed {op : Mnemonic} (h : op.shape = .ds) (a b : Reg) :
    (RawInstr.mk op a b 0).wellFormed = true := by
  have ha := a.isLt; have hb := b.isLt
  simp [RawInstr.wellFormed, RawInstr.fieldsFit, RawInstr.registersLegal, h, Shape.fieldWidths,
    Shape.registerFields]
  omega

theorem di_wellFormed {op : Mnemonic} (h : op.shape = .di) (a : Reg) (imm : BitVec 16) :
    (RawInstr.mk op a imm.toNat 0).wellFormed = true := by
  have ha := a.isLt; have hc := imm.isLt
  simp [RawInstr.wellFormed, RawInstr.fieldsFit, RawInstr.registersLegal, h, Shape.fieldWidths,
    Shape.registerFields]
  omega

theorem i_wellFormed {op : Mnemonic} (h : op.shape = .i) (imm : BitVec 24) :
    (RawInstr.mk op imm.toNat 0 0).wellFormed = true := by
  have hc := imm.isLt
  simp [RawInstr.wellFormed, RawInstr.fieldsFit, RawInstr.registersLegal, h, Shape.fieldWidths,
    Shape.registerFields]
  omega

theorem dss_roundTrip {α : Type} (b : Byte) (x y z : Reg) (make : Reg → Reg → Reg → α) :
    dssFields (b ++ (BitVec.ofNat 8 x ++ BitVec.ofNat 8 y ++ BitVec.ofNat 8 z) : BitVec 32) make =
      .ok (make x y z) := by
  unfold dssFields
  rw [field23to16_three, field15to8_three, field7to0_three]
  simp only [regField_ofNat _ 8 _ (by decide)]
  rfl

theorem dsi_roundTrip {α : Type} (b : Byte) (x y : Reg) (imm : BitVec 8) (make : Reg → Reg → BitVec 8 → α) :
    dsiFields (b ++ (BitVec.ofNat 8 x ++ BitVec.ofNat 8 y ++ BitVec.ofNat 8 imm.toNat) : BitVec 32) make =
      .ok (make x y imm) := by
  unfold dsiFields
  rw [field23to16_three, field15to8_three, field7to0_three]
  simp only [regField_ofNat _ 8 _ (by decide), BitVec.ofNat_toNat, BitVec.setWidth_eq]
  rfl

theorem ds_roundTrip {α : Type} (b : Byte) (x y : Reg) (make : Reg → Reg → α) :
    dsFields (b ++ (BitVec.ofNat 8 x ++ BitVec.ofNat 16 y) : BitVec 32) make = .ok (make x y) := by
  unfold dsFields
  rw [field23to16_two, field15to0_two]
  simp only [regField_ofNat _ 8 _ (by decide), regField_ofNat _ 16 _ (by decide)]
  rfl

theorem di_roundTrip {α : Type} (b : Byte) (x : Reg) (imm : BitVec 16) (make : Reg → BitVec 16 → α) :
    diFields (b ++ (BitVec.ofNat 8 x ++ BitVec.ofNat 16 imm.toNat) : BitVec 32) make = .ok (make x imm) := by
  unfold diFields
  rw [field23to16_two, field15to0_two]
  simp only [regField_ofNat _ 8 _ (by decide), BitVec.ofNat_toNat, BitVec.setWidth_eq]
  rfl

theorem i_roundTrip {α : Type} (b : Byte) (imm : BitVec 24) (make : BitVec 24 → α) :
    iFields (b ++ BitVec.ofNat 24 imm.toNat : BitVec 32) make = .ok (make imm) := by
  unfold iFields
  rw [field23to0_one]
  simp only [BitVec.ofNat_toNat, BitVec.setWidth_eq]

/-! ### The law for each constructor -/

theorem OperandFields.add (rd rs1 rs2 : Reg) : OperandFields.Statement (.add rd rs1 rs2) :=
  ⟨rfl, dss_wellFormed rfl rd rs1 rs2, fun b => dss_roundTrip b rd rs1 rs2 _⟩

theorem OperandFields.mul (rd rs1 rs2 : Reg) : OperandFields.Statement (.mul rd rs1 rs2) :=
  ⟨rfl, dss_wellFormed rfl rd rs1 rs2, fun b => dss_roundTrip b rd rs1 rs2 _⟩

theorem OperandFields.mulh (rd rs1 rs2 : Reg) : OperandFields.Statement (.mulh rd rs1 rs2) :=
  ⟨rfl, dss_wellFormed rfl rd rs1 rs2, fun b => dss_roundTrip b rd rs1 rs2 _⟩

theorem OperandFields.div (rd rs1 rs2 : Reg) : OperandFields.Statement (.div rd rs1 rs2) :=
  ⟨rfl, dss_wellFormed rfl rd rs1 rs2, fun b => dss_roundTrip b rd rs1 rs2 _⟩

theorem OperandFields.rem (rd rs1 rs2 : Reg) : OperandFields.Statement (.rem rd rs1 rs2) :=
  ⟨rfl, dss_wellFormed rfl rd rs1 rs2, fun b => dss_roundTrip b rd rs1 rs2 _⟩

theorem OperandFields.slt (rd rs1 rs2 : Reg) : OperandFields.Statement (.slt rd rs1 rs2) :=
  ⟨rfl, dss_wellFormed rfl rd rs1 rs2, fun b => dss_roundTrip b rd rs1 rs2 _⟩

theorem OperandFields.slts (rd rs1 rs2 : Reg) : OperandFields.Statement (.slts rd rs1 rs2) :=
  ⟨rfl, dss_wellFormed rfl rd rs1 rs2, fun b => dss_roundTrip b rd rs1 rs2 _⟩

theorem OperandFields.seqz (rd rs1 : Reg) : OperandFields.Statement (.seqz rd rs1) :=
  ⟨rfl, ds_wellFormed rfl rd rs1, fun b => ds_roundTrip b rd rs1 _⟩

theorem OperandFields.and (rd rs1 rs2 : Reg) : OperandFields.Statement (.and rd rs1 rs2) :=
  ⟨rfl, dss_wellFormed rfl rd rs1 rs2, fun b => dss_roundTrip b rd rs1 rs2 _⟩

theorem OperandFields.or (rd rs1 rs2 : Reg) : OperandFields.Statement (.or rd rs1 rs2) :=
  ⟨rfl, dss_wellFormed rfl rd rs1 rs2, fun b => dss_roundTrip b rd rs1 rs2 _⟩

theorem OperandFields.xor (rd rs1 rs2 : Reg) : OperandFields.Statement (.xor rd rs1 rs2) :=
  ⟨rfl, dss_wellFormed rfl rd rs1 rs2, fun b => dss_roundTrip b rd rs1 rs2 _⟩

theorem OperandFields.not (rd rs1 rs2 : Reg) : OperandFields.Statement (.not rd rs1 rs2) :=
  ⟨rfl, dss_wellFormed rfl rd rs1 rs2, fun b => dss_roundTrip b rd rs1 rs2 _⟩

theorem OperandFields.sll (rd rs1 rs2 : Reg) : OperandFields.Statement (.sll rd rs1 rs2) :=
  ⟨rfl, dss_wellFormed rfl rd rs1 rs2, fun b => dss_roundTrip b rd rs1 rs2 _⟩

theorem OperandFields.srl (rd rs1 rs2 : Reg) : OperandFields.Statement (.srl rd rs1 rs2) :=
  ⟨rfl, dss_wellFormed rfl rd rs1 rs2, fun b => dss_roundTrip b rd rs1 rs2 _⟩

theorem OperandFields.sra (rd rs1 rs2 : Reg) : OperandFields.Statement (.sra rd rs1 rs2) :=
  ⟨rfl, dss_wellFormed rfl rd rs1 rs2, fun b => dss_roundTrip b rd rs1 rs2 _⟩

theorem OperandFields.addi (rd rs1 : Reg) (imm : BitVec 8) : OperandFields.Statement (.addi rd rs1 imm) :=
  ⟨rfl, dsi_wellFormed rfl rd rs1 imm, fun b => dsi_roundTrip b rd rs1 imm _⟩

theorem OperandFields.slti (rd rs1 : Reg) (imm : BitVec 8) : OperandFields.Statement (.slti rd rs1 imm) :=
  ⟨rfl, dsi_wellFormed rfl rd rs1 imm, fun b => dsi_roundTrip b rd rs1 imm _⟩

theorem OperandFields.sltsi (rd rs1 : Reg) (imm : BitVec 8) : OperandFields.Statement (.sltsi rd rs1 imm) :=
  ⟨rfl, dsi_wellFormed rfl rd rs1 imm, fun b => dsi_roundTrip b rd rs1 imm _⟩

theorem OperandFields.lui (rd : Reg) (imm : BitVec 16) : OperandFields.Statement (.lui rd imm) :=
  ⟨rfl, di_wellFormed rfl rd imm, fun b => di_roundTrip b rd imm _⟩

theorem OperandFields.lli (rd : Reg) (imm : BitVec 16) : OperandFields.Statement (.lli rd imm) :=
  ⟨rfl, di_wellFormed rfl rd imm, fun b => di_roundTrip b rd imm _⟩

theorem OperandFields.andi (rd rs1 : Reg) (imm : BitVec 8) : OperandFields.Statement (.andi rd rs1 imm) :=
  ⟨rfl, dsi_wellFormed rfl rd rs1 imm, fun b => dsi_roundTrip b rd rs1 imm _⟩

theorem OperandFields.ori (rd rs1 : Reg) (imm : BitVec 8) : OperandFields.Statement (.ori rd rs1 imm) :=
  ⟨rfl, dsi_wellFormed rfl rd rs1 imm, fun b => dsi_roundTrip b rd rs1 imm _⟩

theorem OperandFields.xori (rd rs1 : Reg) (imm : BitVec 8) : OperandFields.Statement (.xori rd rs1 imm) :=
  ⟨rfl, dsi_wellFormed rfl rd rs1 imm, fun b => dsi_roundTrip b rd rs1 imm _⟩

theorem OperandFields.slli (rd rs1 : Reg) (imm : BitVec 8) : OperandFields.Statement (.slli rd rs1 imm) :=
  ⟨rfl, dsi_wellFormed rfl rd rs1 imm, fun b => dsi_roundTrip b rd rs1 imm _⟩

theorem OperandFields.srli (rd rs1 : Reg) (imm : BitVec 8) : OperandFields.Statement (.srli rd rs1 imm) :=
  ⟨rfl, dsi_wellFormed rfl rd rs1 imm, fun b => dsi_roundTrip b rd rs1 imm _⟩

theorem OperandFields.srai (rd rs1 : Reg) (imm : BitVec 8) : OperandFields.Statement (.srai rd rs1 imm) :=
  ⟨rfl, dsi_wellFormed rfl rd rs1 imm, fun b => dsi_roundTrip b rd rs1 imm _⟩

theorem OperandFields.lb (rd rs1 : Reg) (imm : BitVec 8) : OperandFields.Statement (.lb rd rs1 imm) :=
  ⟨rfl, dsi_wellFormed rfl rd rs1 imm, fun b => dsi_roundTrip b rd rs1 imm _⟩

theorem OperandFields.lh (rd rs1 : Reg) (imm : BitVec 8) : OperandFields.Statement (.lh rd rs1 imm) :=
  ⟨rfl, dsi_wellFormed rfl rd rs1 imm, fun b => dsi_roundTrip b rd rs1 imm _⟩

theorem OperandFields.lw (rd rs1 : Reg) (imm : BitVec 8) : OperandFields.Statement (.lw rd rs1 imm) :=
  ⟨rfl, dsi_wellFormed rfl rd rs1 imm, fun b => dsi_roundTrip b rd rs1 imm _⟩

theorem OperandFields.sb (rs2 rs1 : Reg) (imm : BitVec 8) : OperandFields.Statement (.sb rs2 rs1 imm) :=
  ⟨rfl, dsi_wellFormed rfl rs2 rs1 imm, fun b => dsi_roundTrip b rs2 rs1 imm _⟩

theorem OperandFields.sh (rs2 rs1 : Reg) (imm : BitVec 8) : OperandFields.Statement (.sh rs2 rs1 imm) :=
  ⟨rfl, dsi_wellFormed rfl rs2 rs1 imm, fun b => dsi_roundTrip b rs2 rs1 imm _⟩

theorem OperandFields.sw (rs2 rs1 : Reg) (imm : BitVec 8) : OperandFields.Statement (.sw rs2 rs1 imm) :=
  ⟨rfl, dsi_wellFormed rfl rs2 rs1 imm, fun b => dsi_roundTrip b rs2 rs1 imm _⟩

theorem OperandFields.beq (rs1 rs2 : Reg) (imm : BitVec 8) : OperandFields.Statement (.beq rs1 rs2 imm) :=
  ⟨rfl, dsi_wellFormed rfl rs1 rs2 imm, fun b => dsi_roundTrip b rs1 rs2 imm _⟩

theorem OperandFields.bneq (rs1 rs2 : Reg) (imm : BitVec 8) : OperandFields.Statement (.bneq rs1 rs2 imm) :=
  ⟨rfl, dsi_wellFormed rfl rs1 rs2 imm, fun b => dsi_roundTrip b rs1 rs2 imm _⟩

theorem OperandFields.blt (rs1 rs2 : Reg) (imm : BitVec 8) : OperandFields.Statement (.blt rs1 rs2 imm) :=
  ⟨rfl, dsi_wellFormed rfl rs1 rs2 imm, fun b => dsi_roundTrip b rs1 rs2 imm _⟩

theorem OperandFields.ble (rs1 rs2 : Reg) (imm : BitVec 8) : OperandFields.Statement (.ble rs1 rs2 imm) :=
  ⟨rfl, dsi_wellFormed rfl rs1 rs2 imm, fun b => dsi_roundTrip b rs1 rs2 imm _⟩

theorem OperandFields.blts (rs1 rs2 : Reg) (imm : BitVec 8) : OperandFields.Statement (.blts rs1 rs2 imm) :=
  ⟨rfl, dsi_wellFormed rfl rs1 rs2 imm, fun b => dsi_roundTrip b rs1 rs2 imm _⟩

theorem OperandFields.bltes (rs1 rs2 : Reg) (imm : BitVec 8) : OperandFields.Statement (.bltes rs1 rs2 imm) :=
  ⟨rfl, dsi_wellFormed rfl rs1 rs2 imm, fun b => dsi_roundTrip b rs1 rs2 imm _⟩

theorem OperandFields.jalr (rd rs1 : Reg) (imm : BitVec 8) : OperandFields.Statement (.jalr rd rs1 imm) :=
  ⟨rfl, dsi_wellFormed rfl rd rs1 imm, fun b => dsi_roundTrip b rd rs1 imm _⟩

theorem OperandFields.jal (rd : Reg) (imm : BitVec 16) : OperandFields.Statement (.jal rd imm) :=
  ⟨rfl, di_wellFormed rfl rd imm, fun b => di_roundTrip b rd imm _⟩

theorem OperandFields.j (imm : BitVec 24) : OperandFields.Statement (.j imm) :=
  ⟨rfl, i_wellFormed rfl imm, fun b => i_roundTrip b imm _⟩

/-- The law holds of every instruction. -/
theorem operandFields (i : Instr) : OperandFields.Statement i := by
  cases i with
  | add a b c => exact OperandFields.add a b c
  | mul a b c => exact OperandFields.mul a b c
  | mulh a b c => exact OperandFields.mulh a b c
  | div a b c => exact OperandFields.div a b c
  | rem a b c => exact OperandFields.rem a b c
  | slt a b c => exact OperandFields.slt a b c
  | slts a b c => exact OperandFields.slts a b c
  | seqz a b => exact OperandFields.seqz a b
  | and a b c => exact OperandFields.and a b c
  | or a b c => exact OperandFields.or a b c
  | xor a b c => exact OperandFields.xor a b c
  | not a b c => exact OperandFields.not a b c
  | sll a b c => exact OperandFields.sll a b c
  | srl a b c => exact OperandFields.srl a b c
  | sra a b c => exact OperandFields.sra a b c
  | addi a b c => exact OperandFields.addi a b c
  | slti a b c => exact OperandFields.slti a b c
  | sltsi a b c => exact OperandFields.sltsi a b c
  | lui a b => exact OperandFields.lui a b
  | lli a b => exact OperandFields.lli a b
  | andi a b c => exact OperandFields.andi a b c
  | ori a b c => exact OperandFields.ori a b c
  | xori a b c => exact OperandFields.xori a b c
  | slli a b c => exact OperandFields.slli a b c
  | srli a b c => exact OperandFields.srli a b c
  | srai a b c => exact OperandFields.srai a b c
  | lb a b c => exact OperandFields.lb a b c
  | lh a b c => exact OperandFields.lh a b c
  | lw a b c => exact OperandFields.lw a b c
  | sb a b c => exact OperandFields.sb a b c
  | sh a b c => exact OperandFields.sh a b c
  | sw a b c => exact OperandFields.sw a b c
  | beq a b c => exact OperandFields.beq a b c
  | bneq a b c => exact OperandFields.bneq a b c
  | blt a b c => exact OperandFields.blt a b c
  | ble a b c => exact OperandFields.ble a b c
  | blts a b c => exact OperandFields.blts a b c
  | bltes a b c => exact OperandFields.bltes a b c
  | jalr a b c => exact OperandFields.jalr a b c
  | jal a b => exact OperandFields.jal a b
  | j a => exact OperandFields.j a

/-- Every term of Instr is well-formed: its operands' types are the check (spec/30_encoding.md R69). -/
theorem wellFormed_of_types (i : Instr) : i.wellFormed = true :=
  (operandFields i).2.1

end Sys2Proof.Laws
end

