-- ==== Sys2Proof/Laws/Step.lean ====
section
/-!
SUPPORT. What a step can do, said once: the cases of `fetchDecode`, and step in each of them.
-/

namespace Sys2Proof.Machine

/-- The bytes fetched at a pc with a whole word of the stream at it. -/
theorem fetchBytes_eq (s : State) (h : s.pc + 4 ≤ s.cfg.imemLen) :
    fetchBytes s = [Memory.read s.cfg.imem s.pc, Memory.read s.cfg.imem (s.pc + 1),
      Memory.read s.cfg.imem (s.pc + 2), Memory.read s.cfg.imem (s.pc + 3)] := by
  have h0 : s.pc < s.cfg.imemLen := by omega
  have h1 : s.pc + 1 < s.cfg.imemLen := by omega
  have h2 : s.pc + 2 < s.cfg.imemLen := by omega
  have h3 : s.pc + 3 < s.cfg.imemLen := by omega
  simp [fetchBytes, h0, h1, h2, h3]

/-- An aligned pc inside a stream of whole words has a whole word at it (spec/20_memory.md R42). -/
theorem wholeWord {pc len : Nat} (hlen : len % 4 = 0) (hpc : pc % 4 = 0) (h : pc < len) : pc + 4 ≤ len := by
  omega

theorem fetchDecode_stopped (s : State) (h : s.status ≠ .running) :
    fetchDecode s = .error (.fault (.stopped s.status)) := by
  simp [fetchDecode, h]

theorem fetchDecode_end (s : State) (h : s.status = .running) (hpc : s.cfg.imemLen ≤ s.pc) :
    fetchDecode s = .error (.next (haltWith s .haltedEnd)) := by
  simp [fetchDecode, h, pastEnd, hpc]

theorem fetchDecode_cap (s : State) (h : s.status = .running) (hpc : s.pc < s.cfg.imemLen)
    (hcap : capReached s = true) : fetchDecode s = .error (.next (haltWith s .haltedLimit)) := by
  simp [fetchDecode, h, pastEnd, Nat.not_le.mpr hpc, hcap]

theorem fetchDecode_misaligned (s : State) (h : s.status = .running) (hpc : s.pc < s.cfg.imemLen)
    (hcap : capReached s = false) (ha : s.pc % 4 ≠ 0) :
    fetchDecode s = .error (.next (raiseFault s ⟨.misalignedFetch, s.pc⟩)) := by
  simp [fetchDecode, h, pastEnd, Nat.not_le.mpr hpc, hcap, ha]

/-- Past the checks, a step is decided by the decoding of the four bytes at the pc. -/
theorem fetchDecode_word (s : State) (h : s.status = .running) (hpc : s.pc + 4 ≤ s.cfg.imemLen)
    (hcap : capReached s = false) (ha : s.pc % 4 = 0) :
    fetchDecode s =
      match decode s.cfg.opcodeMap (wordOfBytes (Memory.read s.cfg.imem s.pc)
        (Memory.read s.cfg.imem (s.pc + 1)) (Memory.read s.cfg.imem (s.pc + 2))
        (Memory.read s.cfg.imem (s.pc + 3))) with
      | .ok i => .ok i
      | .error e => .error (rejectWord s e) := by
  simp only [fetchDecode, h, pastEnd, Nat.not_le.mpr (Nat.lt_of_lt_of_le (Nat.lt_add_of_pos_right
    (by omega : 0 < 4)) hpc), hcap, ha, fetchBytes_eq s hpc, decodeBytes]
  cases decode s.cfg.opcodeMap _ <;> rfl

/-- The cap is reached exactly when a cap is given and as many instructions have completed. -/
theorem capReached_iff (s : State) : capReached s = true ↔ ∃ n, s.cfg.maxSteps = some n ∧ n ≤ s.retired := by
  unfold capReached
  cases s.cfg.maxSteps <;> simp

theorem capReached_false_iff (s : State) :
    capReached s = false ↔ ∀ n, s.cfg.maxSteps = some n → s.retired < n := by
  unfold capReached
  cases s.cfg.maxSteps <;> simp

/-- Everything a step can do: no step outside RUNNING; a normal halt; a misaligned fetch; a stream cut short;
a rejected word; or the decoded instruction's execution. -/
theorem step_cases (s : State) :
    (s.status ≠ .running ∧ step s = .fault (.stopped s.status)) ∨
    (s.status = .running ∧ s.cfg.imemLen ≤ s.pc ∧ step s = .next (haltWith s .haltedEnd)) ∨
    (s.status = .running ∧ s.pc < s.cfg.imemLen ∧ capReached s = true ∧
      step s = .next (haltWith s .haltedLimit)) ∨
    (s.status = .running ∧ s.pc < s.cfg.imemLen ∧ capReached s = false ∧ s.pc % 4 ≠ 0 ∧
      step s = .next (raiseFault s ⟨.misalignedFetch, s.pc⟩)) ∨
    (s.status = .running ∧ s.pc < s.cfg.imemLen ∧ capReached s = false ∧ s.pc % 4 = 0 ∧
      ∃ e, decodeBytes s.cfg.opcodeMap (fetchBytes s) = .error e ∧ step s = rejectWord s e) ∨
    (s.status = .running ∧ s.pc < s.cfg.imemLen ∧ capReached s = false ∧ s.pc % 4 = 0 ∧
      ∃ i rest, decodeBytes s.cfg.opcodeMap (fetchBytes s) = .ok (i, rest) ∧ step s = exec i s) := by
  by_cases h : s.status = .running
  · rcases Nat.lt_or_ge s.pc s.cfg.imemLen with hpc | hpc
    · cases hcap : capReached s
      · by_cases ha : s.pc % 4 = 0
        · cases hd : decodeBytes s.cfg.opcodeMap (fetchBytes s) with
          | error e =>
            have hs : step s = rejectWord s e := by
              simp [step, fetchDecode, h, pastEnd, Nat.not_le.mpr hpc, hcap, ha, hd]
            exact .inr <| .inr <| .inr <| .inr <| .inl ⟨h, hpc, rfl, ha, e, rfl, hs⟩
          | ok p =>
            have hs : step s = exec p.1 s := by
              simp [step, fetchDecode, h, pastEnd, Nat.not_le.mpr hpc, hcap, ha, hd]
            exact .inr <| .inr <| .inr <| .inr <| .inr ⟨h, hpc, rfl, ha, p.1, p.2, rfl, hs⟩
        · simp [step, fetchDecode_misaligned s h hpc hcap ha, h, hpc, ha]
      · simp [step, fetchDecode_cap s h hpc hcap, h, hpc]
    · simp [step, fetchDecode_end s h hpc, h, hpc]
  · simp [step, fetchDecode_stopped s h, h]

/-- A run of any core whose first step answers a next state goes on from that state. -/
theorem core_run_next (M : Host.Core) {k : Nat} {s t : M.State} (h : M.step s = .next t) :
    M.run (k + 1) s = M.run k t := by
  simp only [Host.Core.run, h]

/-- A run of any core that reaches a state took a first step to a next state. -/
theorem core_run_split (M : Host.Core) {k : Nat} {s t : M.State} (h : M.run (k + 1) s = .next t) :
    ∃ u, M.step s = .next u ∧ M.run k u = .next t := by
  cases hs : M.step s with
  | next u => exact ⟨u, rfl, by rwa [core_run_next M hs] at h⟩
  | fault r => simp [Host.Core.run, hs] at h
  | refused r => simp [Host.Core.run, hs] at h

/-- `core_run_next` for this core, in terms of `step`. -/
theorem run_next {k : Nat} {s t : State} (h : step s = .next t) :
    Sys2Proof.core.run (k + 1) s = Sys2Proof.core.run k t :=
  core_run_next Sys2Proof.core h

/-- `core_run_split` for this core, in terms of `step`. -/
theorem run_split {k : Nat} {s t : State} (h : Sys2Proof.core.run (k + 1) s = .next t) :
    ∃ u, step s = .next u ∧ Sys2Proof.core.run k u = .next t :=
  core_run_split Sys2Proof.core h

/-- What every step keeps holds at the end of every run from a state in which it holds. -/
theorem run_keeps (P : State → Prop) (hP : ∀ s t, P s → step s = .next t → P t) (k : Nat) (s t : State)
    (hs : P s) (h : Sys2Proof.core.run k s = .next t) : P t := by
  induction k generalizing s with
  | zero => cases h; exact hs
  | succ k ih =>
    obtain ⟨u, hu, hr⟩ := run_split h
    exact ih u (hP s u hs hu) hr

end Sys2Proof.Machine
end

