-- ==== Sys2Proof/Tests/Slice0.lean ====
section
/-!
SUPPORT. Small tests. Expected values come from the encoding tables of spec/30_encoding.md and from the vectors
S1 to S8 and V1 to V99 of spec/95_test_vectors.md, named where they are used. The witnesses at the end meet the
hypotheses of the statements of Certificates/Slice0/Obligations.lean.
-/

namespace Sys2Proof.Tests
open Sys2Proof.Machine Sys2Proof.Toolchain

/-! ### Helpers -/

/-- A configuration whose stream holds the word at the offset `pc`, zero bytes before it. -/
def streamAt (cfg : Config) (pc : Nat) (w : Word) : Config :=
  { cfg with imem := Memory.writeList [] pc (bytesOfWord w), imemLen := pc + 4 }

/-- A running core about to execute the word at `pc`, with preset registers and cells. -/
def machine (cfg : Config) (pc : Nat) (w : Word) (regs : List (Reg × Word)) (cells : Memory 32) : State :=
  regs.foldl (fun s p => s.setReg p.1 p.2)
    { State.ofConfig (streamAt cfg pc w) with pc := pc, dmem := cells }

/-- A reset core with a stream of the words. -/
def program (cfg : Config) (ws : List Word) : State :=
  State.ofConfig { cfg with imem := Memory.writeList [] 0 (ws.flatMap bytesOfWord), imemLen := 4 * ws.length }

/-- What is seen of the next state, if there is one. -/
def seen {α : Type} (view : State → α) : Host.Outcome State Fault Refusal → Option α
  | .next t => some (view t)
  | .fault _ => none
  | .refused _ => none

/-- One step of the default core on one word, seen through `view`. -/
def one {α : Type} (pc : Nat) (w : Word) (regs : List (Reg × Word)) (view : State → α) : Option α :=
  seen view (step (machine Config.default pc w regs []))

/-- STATUS, the fault record, the pc and RETIRED. -/
def record (t : State) : Status × Nat × Nat × Nat × Nat × Nat :=
  (t.status, t.faultCause.code, t.faultPc, t.faultInfo, t.pc, t.retired)

/-! ### WellFormed refuses an ill-formed term for each of its checks -/

theorem test_fields_dss_first_too_wide : (RawInstr.mk .add 256 0 0).fieldsFit = false := by decide
theorem test_fields_dsi_third_too_wide : (RawInstr.mk .addi 1 2 256).fieldsFit = false := by decide
theorem test_fields_ds_second_too_wide : (RawInstr.mk .seqz 1 65536 0).fieldsFit = false := by decide
theorem test_fields_ds_absent_field_set : (RawInstr.mk .seqz 1 2 1).fieldsFit = false := by decide
theorem test_fields_di_second_too_wide : (RawInstr.mk .lui 1 65536 0).fieldsFit = false := by decide
theorem test_fields_i_first_too_wide : (RawInstr.mk .j (2 ^ 24) 0 0).fieldsFit = false := by decide
theorem test_fields_i_absent_field_set : (RawInstr.mk .j 0 1 0).fieldsFit = false := by decide
theorem test_registers_first_illegal : (RawInstr.mk .add 32 0 0).registersLegal = false := by decide
theorem test_registers_second_illegal : (RawInstr.mk .seqz 0 32 0).registersLegal = false := by decide
/-- NOT's unused second source is checked (spec/30_encoding.md R69). -/
theorem test_registers_unused_illegal : (RawInstr.mk .not 1 2 32).registersLegal = false := by decide
theorem test_raw_well_formed : (RawInstr.mk .addi 31 31 255).wellFormed = true := by decide
theorem test_raw_ill_formed : (RawInstr.mk .addi 1 32 255).wellFormed = false := by decide

/-- The default map with other bytes for some mnemonics and other extensions. -/
def mapWith (changes : List (Mnemonic × Byte)) (extensions : List (Byte × Shape)) : OpcodeMap where
  bytes := ⟨(Mnemonic.all.map fun op =>
    match changes.find? fun c => c.1 == op with
    | some c => c.2
    | none => op.defaultByte).toArray, by simp [Mnemonic.all]⟩
  extensions := extensions

theorem test_map_default : OpcodeMap.default.wellFormed = true := by decide
theorem test_map_not_injective : (mapWith [(.mul, 0x03)] []).injective = false := by decide
theorem test_map_add_not_one : (mapWith [(.add, 0x06)] []).addIsOne = false := by decide
theorem test_map_immediate_bit : (mapWith [(.addi, 0x11)] []).immediateBits = false := by decide
theorem test_map_extension_immediate_bit : (mapWith [] [(0x8F, .dss)]).immediateBits = false := by decide
theorem test_map_class_bits : (mapWith [(.mul, 0x2F)] []).classBits = false := by decide
theorem test_map_extension_taken : (mapWith [] [(0x02, .dss)]).extensionsFresh = false := by decide
theorem test_map_extension_twice : (mapWith [] [(0x0C, .dss), (0x0C, .dss)]).extensionsFresh = false := by decide
theorem test_map_each_check_counts :
    (mapWith [(.mul, 0x03)] []).wellFormed = false ∧ (mapWith [(.add, 0x06)] []).wellFormed = false ∧
    (mapWith [(.addi, 0x11)] []).wellFormed = false ∧ (mapWith [(.mul, 0x2F)] []).wellFormed = false ∧
    (mapWith [] [(0x02, .dss)]).wellFormed = false := by decide

theorem test_stream_length_not_whole_words :
    Config.streamLengthLegal { Config.default with imemLen := 6 } = false := by decide
theorem test_stream_too_long :
    Config.streamLengthLegal { Config.default with imemLen := 2 ^ 24 + 4 } = false := by decide
theorem test_stream_longest_legal :
    Config.streamLengthLegal { Config.default with imemLen := 2 ^ 24 } = true := by decide
theorem test_stream_byte_outside :
    Config.streamCanonical { Config.default with imem := [(4, 1#8)], imemLen := 4 } = false := by decide
theorem test_stream_not_rising :
    Config.streamCanonical { Config.default with imem := [(3, 1#8), (1, 1#8)], imemLen := 4 } = false := by decide
theorem test_mem_init_cell_outside :
    Config.memInitCanonical { Config.default with memInit := [(256, 1#32)] } = false := by decide
theorem test_mem_init_zero_listed :
    Config.memInitCanonical { Config.default with memInit := [(1, 0#32)] } = false := by decide
theorem test_launch_refused :
    (match launch { Config.default with imemLen := 6 } with
      | .refused .illegalLaunch => true
      | _ => false) = true := by decide
theorem test_config_each_check_counts :
    Config.wellFormed { Config.default with imemLen := 6 } = false ∧
    Config.wellFormed { Config.default with imem := [(4, 1#8)], imemLen := 4 } = false ∧
    Config.wellFormed { Config.default with memInit := [(256, 1#32)] } = false ∧
    Config.wellFormed { Config.default with opcodeMap := mapWith [(.add, 0x06)] [] } = false := by decide

/-! ### Decoding: words written out from spec/30_encoding.md R61 and R70, distinct values in every field -/

theorem test_decode_arithmetic_registers :
    decodeTableWord 32 0x01050607 = some (.add 5 6 7) ∧
    decodeTableWord 32 0x02050607 = some (.mul 5 6 7) ∧
    decodeTableWord 32 0x03050607 = some (.mulh 5 6 7) ∧
    decodeTableWord 32 0x04050607 = some (.div 5 6 7) ∧
    decodeTableWord 32 0x05050607 = some (.rem 5 6 7) := by decide

theorem test_decode_compare_registers :
    decodeTableWord 32 0x09050607 = some (.slt 5 6 7) ∧
    decodeTableWord 32 0x0A050607 = some (.slts 5 6 7) ∧
    decodeTableWord 32 0x0B05001F = some (.seqz 5 31) := by decide

theorem test_decode_bitwise_registers :
    decodeTableWord 32 0x21050607 = some (.and 5 6 7) ∧
    decodeTableWord 32 0x22050607 = some (.or 5 6 7) ∧
    decodeTableWord 32 0x23050607 = some (.xor 5 6 7) ∧
    decodeTableWord 32 0x24050607 = some (.not 5 6 7) := by decide

theorem test_decode_shift_registers :
    decodeTableWord 32 0x29050607 = some (.sll 5 6 7) ∧
    decodeTableWord 32 0x2A050607 = some (.srl 5 6 7) ∧
    decodeTableWord 32 0x2B050607 = some (.sra 5 6 7) := by decide

theorem test_decode_arithmetic_immediates :
    decodeTableWord 32 0x810506F7 = some (.addi 5 6 0xF7#8) ∧
    decodeTableWord 32 0x890506F7 = some (.slti 5 6 0xF7#8) ∧
    decodeTableWord 32 0x8A0506F7 = some (.sltsi 5 6 0xF7#8) ∧
    decodeTableWord 32 0x9105ABCD = some (.lui 5 0xABCD#16) ∧
    decodeTableWord 32 0x9205ABCD = some (.lli 5 0xABCD#16) := by decide

theorem test_decode_logic_immediates :
    decodeTableWord 32 0xA10506F7 = some (.andi 5 6 0xF7#8) ∧
    decodeTableWord 32 0xA20506F7 = some (.ori 5 6 0xF7#8) ∧
    decodeTableWord 32 0xA30506F7 = some (.xori 5 6 0xF7#8) ∧
    decodeTableWord 32 0xA90506F7 = some (.slli 5 6 0xF7#8) ∧
    decodeTableWord 32 0xAA0506F7 = some (.srli 5 6 0xF7#8) ∧
    decodeTableWord 32 0xAB0506F7 = some (.srai 5 6 0xF7#8) := by decide

theorem test_decode_loads_and_stores :
    decodeTableWord 32 0xC10506F7 = some (.lb 5 6 0xF7#8) ∧
    decodeTableWord 32 0xC20506F7 = some (.lh 5 6 0xF7#8) ∧
    decodeTableWord 32 0xC30506F7 = some (.lw 5 6 0xF7#8) ∧
    decodeTableWord 32 0xC90506F7 = some (.sb 5 6 0xF7#8) ∧
    decodeTableWord 32 0xCA0506F7 = some (.sh 5 6 0xF7#8) ∧
    decodeTableWord 32 0xCB0506F7 = some (.sw 5 6 0xF7#8) := by decide

theorem test_decode_branches :
    decodeTableWord 32 0xE10506F7 = some (.beq 5 6 0xF7#8) ∧
    decodeTableWord 32 0xE20506F7 = some (.bneq 5 6 0xF7#8) ∧
    decodeTableWord 32 0xE30506F7 = some (.blt 5 6 0xF7#8) ∧
    decodeTableWord 32 0xE40506F7 = some (.ble 5 6 0xF7#8) ∧
    decodeTableWord 32 0xE50506F7 = some (.blts 5 6 0xF7#8) ∧
    decodeTableWord 32 0xE60506F7 = some (.bltes 5 6 0xF7#8) := by decide

theorem test_decode_jumps :
    decodeTableWord 32 0xE90506F7 = some (.jalr 5 6 0xF7#8) ∧
    decodeTableWord 32 0xEA05ABCD = some (.jal 5 0xABCD#16) ∧
    decodeTableWord 32 0xEB0ABCDE = some (.j 0x0ABCDE#24) := by decide

/-- S1 and S2: the encodings of the worked examples. -/
theorem test_encode_examples :
    encodeBytes OpcodeMap.default (.add 1 2 3) = [0x01#8, 0x01#8, 0x02#8, 0x03#8] ∧
    encodeBytes OpcodeMap.default (.addi 1 0 5#8) = [0x81#8, 0x01#8, 0x00#8, 0x05#8] := by decide

theorem test_decode_rejects_unassigned :
    decode OpcodeMap.default 0x00000000#32 = .error (.illegalOpcode 0x00#8) ∧
    decode OpcodeMap.default 0xFF010203#32 = .error (.illegalOpcode 0xFF#8) ∧
    decode OpcodeMap.default 0x06010203#32 = .error (.illegalOpcode 0x06#8) ∧
    decodeTableWord 32 0xE7000000 = none := by decide

/-- The values of V12, V24, V92 and V93, and DSI and DI fields. -/
theorem test_decode_rejects_registers :
    decode OpcodeMap.default 0x24030120#32 = .error (.illegalRegister 3 32) ∧
    decode OpcodeMap.default 0x0B010100#32 = .error (.illegalRegister 2 256) ∧
    decode OpcodeMap.default 0x01012003#32 = .error (.illegalRegister 2 32) ∧
    decode OpcodeMap.default 0x01402003#32 = .error (.illegalRegister 1 64) ∧
    decode OpcodeMap.default 0x810120FF#32 = .error (.illegalRegister 2 32) ∧
    decode OpcodeMap.default 0xEA200000#32 = .error (.illegalRegister 1 32) := by decide

theorem test_decode_rejects_short :
    decodeBytes OpcodeMap.default [0x01#8, 0x01#8, 0x02#8] = .error .truncatedWord ∧
    decodeBytes OpcodeMap.default [] = .error .truncatedWord := by decide

/-- Under a map that swaps two bytes the words swap with them (spec/30_encoding.md R71). -/
theorem test_decode_other_map :
    decode (mapWith [(.mul, 0x03), (.mulh, 0x02)] []) 0x02010203#32 = .ok (.mulh 1 2 3) ∧
    (mapWith [(.mul, 0x03), (.mulh, 0x02)] []).wellFormed = true := by decide

/-- S3: the worked example of sign extension. -/
theorem test_sext_example : sext 0xFF#8 = 0xFFFFFFFF ∧ sext 0x7F#8 = 0x7F := by decide

/-! ### One step of each instruction (spec/95_test_vectors.md section 2) -/

/-- V1. -/
theorem test_add_wraps : one 0 0x01010203#32 [(2, 0xFFFFFFFF#32), (3, 1#32)] (fun t => (t.reg 1, t.pc, t.retired)) = some (0#32, 4, 1) := by decide

/-- V25. -/
theorem test_add_source_is_destination : one 0 0x01010101#32 [(1, 5#32)] (fun t => t.reg 1) = some 10#32 := by decide

/-- V3. -/
theorem test_mul_low : one 0 0x02010203#32 [(2, 300#32), (3, 300#32)] (fun t => t.reg 1) = some 0x5F90#32 := by decide

/-- V4. -/
theorem test_mul_low_of_max : one 0 0x02010203#32 [(2, 0xFFFFFFFF#32), (3, 0xFFFFFFFF#32)] (fun t => t.reg 1) = some 1#32 := by decide

/-- V5, SHIFT_INTO_HIGH. -/
theorem test_mulh_shift_into_high : one 0 0x03010203#32 [(2, 300#32), (3, 300#32)] (fun t => t.reg 1) = some 0x5F900000#32 := by decide

/-- V5, HIGH_HALF. -/
theorem test_mulh_high_half :
    seen (fun t => t.reg 1) (step (machine { Config.default with mulhMode := .highHalf } 0 0x03010203#32
      [(2, 300#32), (3, 300#32)] [])) = some 1#32 := by decide

/-- V6. -/
theorem test_div_unsigned : one 0 0x04010203#32 [(2, 0xFFFFFFFF#32), (3, 2#32)] (fun t => t.reg 1) = some 0x7FFFFFFF#32 := by decide

/-- V7. -/
theorem test_div_by_zero : one 0 0x04010203#32 [(2, 7#32)] (fun t => record t) = some (.faulted, 3, 0, 0, 0, 0) := by decide

/-- V8. -/
theorem test_rem_by_zero : one 0 0x05010203#32 [(2, 7#32)] (fun t => t.faultCause) = some .divideByZero := by decide

/-- V9. -/
theorem test_rem_unsigned : one 0 0x05010203#32 [(2, 0xFFFFFFFF#32), (3, 16#32)] (fun t => t.reg 1) = some 15#32 := by decide

/-- V10. -/
theorem test_and : one 0 0x21010203#32 [(2, 0xF0F0#32), (3, 0xFF00#32)] (fun t => t.reg 1) = some 0xF000#32 := by decide

/-- V10. -/
theorem test_or : one 0 0x22010203#32 [(2, 0xF0F0#32), (3, 0xFF00#32)] (fun t => t.reg 1) = some 0xFFF0#32 := by decide

/-- V10. -/
theorem test_xor : one 0 0x23010203#32 [(2, 0xF0F0#32), (3, 0xFF00#32)] (fun t => t.reg 1) = some 0x0FF0#32 := by decide

/-- V11. -/
theorem test_not : one 0 0x24030100#32 [(1, 0x0000FFFF#32)] (fun t => t.reg 3) = some 0xFFFF0000#32 := by decide

/-- V12. -/
theorem test_not_unused_field : one 0 0x24030120#32 [] (fun t => record t) = some (.faulted, 2, 0, 196640, 0, 0) := by decide

/-- V13. -/
theorem test_sll_by_32 : one 0 0x29030102#32 [(1, 1#32), (2, 32#32)] (fun t => t.reg 3) = some 0#32 := by decide

/-- V14. -/
theorem test_sll_by_31 : one 0 0x29030102#32 [(1, 1#32), (2, 31#32)] (fun t => t.reg 3) = some 0x80000000#32 := by decide

/-- V15. -/
theorem test_srl_by_31 : one 0 0x2A030102#32 [(1, 0x80000000#32), (2, 31#32)] (fun t => t.reg 3) = some 1#32 := by decide

/-- V16, MAGNITUDE. -/
theorem test_sra_magnitude : one 0 0x2B030102#32 [(1, 0xFFFFFFFB#32), (2, 1#32)] (fun t => t.reg 3) = some 0xFFFFFFFE#32 := by decide

/-- V19, FLOOR, by 40. -/
theorem test_sra_floor :
    seen (fun t => t.reg 3) (step (machine { Config.default with sraMode := .floor } 0 0x2B030102#32
      [(1, 0xFFFFFFFF#32), (2, 40#32)] [])) = some 0xFFFFFFFF#32 := by decide

/-- V20. -/
theorem test_slt : one 0 0x09030102#32 [(1, 0xFFFFFFFF#32), (2, 1#32)] (fun t => t.reg 3) = some 0#32 := by decide

/-- V21. -/
theorem test_slts : one 0 0x0A030102#32 [(1, 0xFFFFFFFF#32), (2, 1#32)] (fun t => t.reg 3) = some 1#32 := by decide

/-- V22. -/
theorem test_seqz_zero : one 0 0x0B010002#32 [] (fun t => t.reg 1) = some 1#32 := by decide

/-- V23. -/
theorem test_seqz_nonzero : one 0 0x0B010002#32 [(2, 0x80000000#32)] (fun t => t.reg 1) = some 0#32 := by decide

/-- V30. -/
theorem test_addi_minus_one : one 0 0x810100FF#32 [] (fun t => t.reg 1) = some 0xFFFFFFFF#32 := by decide

/-- S7: the write to r0 is discarded. -/
theorem test_addi_r0 : one 0 0x81000005#32 [] (fun t => (t.reg 0, t.regs[0], t.pc)) = some (0#32, 0#32, 4) := by decide

/-- V33. -/
theorem test_andi : one 0 0xA10201FF#32 [(1, 0xFFFFFFFF#32)] (fun t => t.reg 2) = some 0xFF#32 := by decide

/-- V34. -/
theorem test_ori : one 0 0xA2020134#32 [(1, 0x1200#32)] (fun t => t.reg 2) = some 0x1234#32 := by decide

/-- V35. -/
theorem test_xori : one 0 0xA30201FF#32 [(1, 0xFFFFFFFF#32)] (fun t => t.reg 2) = some 0xFFFFFF00#32 := by decide

/-- V36. -/
theorem test_slli_by_31 : one 0 0xA902011F#32 [(1, 1#32)] (fun t => t.reg 2) = some 0x80000000#32 := by decide

/-- V37. -/
theorem test_slli_by_200 : one 0 0xA90201C8#32 [(1, 1#32)] (fun t => t.reg 2) = some 0#32 := by decide

/-- V38. -/
theorem test_srli : one 0 0xAA02011F#32 [(1, 0x80000000#32)] (fun t => t.reg 2) = some 1#32 := by decide

/-- V40, MAGNITUDE. -/
theorem test_srai_magnitude : one 0 0xAB020101#32 [(1, 0xFFFFFFFB#32)] (fun t => t.reg 2) = some 0xFFFFFFFE#32 := by decide

/-- V40, FLOOR. -/
theorem test_srai_floor :
    seen (fun t => t.reg 2) (step (machine { Config.default with sraMode := .floor } 0 0xAB020101#32
      [(1, 0xFFFFFFFB#32)] [])) = some 0xFFFFFFFD#32 := by decide

/-- V41. -/
theorem test_slti : one 0 0x890201FF#32 [(1, 5#32)] (fun t => t.reg 2) = some 1#32 := by decide

/-- V42. -/
theorem test_sltsi : one 0 0x8A0201FF#32 [(1, 5#32)] (fun t => t.reg 2) = some 0#32 := by decide

/-- V43. -/
theorem test_sltsi_negative : one 0 0x8A020100#32 [(1, 0x80000000#32)] (fun t => t.reg 2) = some 1#32 := by decide

/-- V44. -/
theorem test_lui : one 0 0x9104ABCD#32 [(4, 0x00001234#32)] (fun t => t.reg 4) = some 0xABCD1234#32 := by decide

/-- V45. -/
theorem test_lli : one 0 0x92041234#32 [(4, 0xABCD0000#32)] (fun t => t.reg 4) = some 0xABCD1234#32 := by decide

/-- V46. -/
theorem test_lli_not_sign_extended : one 0 0x9201FFFF#32 [] (fun t => t.reg 1) = some 0x0000FFFF#32 := by decide

/-- V53. -/
theorem test_lb :
    seen (fun t => t.reg 1) (step (machine Config.default 0 0xC1010200#32
      [(2, 4#32)] [(4, 0xFFFFFF80#32)])) = some 0x80#32 := by decide

/-- V54. -/
theorem test_lb_offset_255 :
    seen (fun t => t.reg 1) (step (machine Config.default 0 0xC10102FF#32
      [] [(255, 9#32)])) = some 9#32 := by decide

/-- V51. -/
theorem test_lh :
    seen (fun t => t.reg 1) (step (machine Config.default 0 0xC2010200#32
      [(2, 4#32)] [(4, 0x12345678#32)])) = some 0x5678#32 := by decide

/-- V57. -/
theorem test_lh_offset_127 :
    seen (fun t => t.reg 1) (step (machine Config.default 0 0xC201027F#32
      [(2, 0x7F#32)] [(254, 3#32)])) = some 3#32 := by decide

/-- V55. -/
theorem test_lw_negative_offset : one 0 0xC30102FF#32 [(2, 4#32)] (fun t => record t) = some (.faulted, 4, 0, 0x100000003, 0, 0) := by decide

/-- V63. -/
theorem test_lw_base_is_destination :
    seen (fun t => t.reg 2) (step (machine Config.default 0 0xC3020200#32
      [(2, 4#32)] [(4, 8#32)])) = some 8#32 := by decide

/-- V58. -/
theorem test_sb_replaces_cell :
    seen (fun t => (t.dmem, t.reg 1, t.pc)) (step (machine Config.default 0 0xC9010200#32
      [(1, 0xAABBCCDD#32), (2, 4#32)] [(4, 0x12345678#32)])) = some ([(4, 0xDD#32)], 0xAABBCCDD#32, 4) := by decide

/-- V61. -/
theorem test_sb_offset_255 : one 0 0xC90102FF#32 [(1, 1#32)] (fun t => t.dmem) = some [(255, 1#32)] := by decide

/-- V59. -/
theorem test_sh : one 0 0xCA010201#32 [(1, 0xAABBCCDD#32), (2, 4#32)] (fun t => t.dmem) = some [(5, 0x0000CCDD#32)] := by decide

/-- V62. -/
theorem test_sh_out_of_range : one 0 0xCA010280#32 [(1, 1#32)] (fun t => (t.status, t.faultInfo, t.dmem)) = some (.faulted, 0xFFFFFF80, []) := by decide

/-- V60. -/
theorem test_sw : one 0 0xCB020010#32 [(2, 15#32)] (fun t => (t.dmem, t.reg 2)) = some ([(16, 15#32)], 15#32) := by decide

/-- V70. -/
theorem test_beq_taken : one 20 0xE1010208#32 [(1, 3#32), (2, 3#32)] (fun t => t.pc) = some 8 := by decide

/-- V71. -/
theorem test_beq_not_taken : one 20 0xE1010208#32 [(1, 3#32), (2, 4#32)] (fun t => t.pc) = some 24 := by decide

/-- V72. -/
theorem test_bneq : one 16 0xE2010008#32 [(1, 3#32)] (fun t => t.pc) = some 8 := by decide

/-- V73. -/
theorem test_blt_taken : one 4 0xE3010200#32 [(1, 1#32), (2, 0xFFFFFFFF#32)] (fun t => t.pc) = some 0 := by decide

/-- V74. -/
theorem test_blt_not_taken : one 4 0xE3010200#32 [(1, 0xFFFFFFFF#32), (2, 1#32)] (fun t => t.pc) = some 8 := by decide

/-- V75. -/
theorem test_ble_equal : one 0 0xE401020C#32 [(1, 7#32), (2, 7#32)] (fun t => t.pc) = some 12 := by decide

/-- V76. -/
theorem test_blts : one 8 0xE5010204#32 [(1, 0xFFFFFFFF#32), (2, 1#32)] (fun t => t.pc) = some 4 := by decide

/-- V77, STRICT. -/
theorem test_bltes_strict : one 8 0xE6010210#32 [(1, 0xFFFFFFFE#32), (2, 0xFFFFFFFE#32)] (fun t => t.pc) = some 12 := by decide

/-- V77, LESS_EQUAL. -/
theorem test_bltes_less_equal :
    seen (fun t => t.pc) (step (machine { Config.default with bltesMode := .lessEqual } 8 0xE6010210#32
      [(1, 0xFFFFFFFE#32), (2, 0xFFFFFFFE#32)] [])) = some 16 := by decide

/-- V79, at pc 4: the link is the pc of the JAL (spec/44_control_transfer.md R198). -/
theorem test_jal : one 4 0xEA1F000C#32 [] (fun t => (t.reg 31, t.pc)) = some (4#32, 12) := by decide

/-- V80. -/
theorem test_j : one 8 0xEB000000#32 [] (fun t => (t.pc, t.regs)) = some (0, Vector.replicate 32 0#32) := by decide

/-- V94. -/
theorem test_j_farthest : one 0 0xEBFFFFFF#32 [] (fun t => t.pc) = some 0xFFFFFF := by decide

/-- V82, JALR_LINK_FIRST = true. -/
theorem test_jalr_link_first : one 12 0xE9050500#32 [(5, 100#32)] (fun t => (t.reg 5, t.pc)) = some (12#32, 16) := by decide

/-- V82, JALR_LINK_FIRST = false. -/
theorem test_jalr_source_first :
    seen (fun t => (t.reg 5, t.pc)) (step (machine { Config.default with jalrLinkFirst := false } 12 0xE9050500#32
      [(5, 100#32)] [])) = some (12#32, 104) := by decide

/-! ### The kernel (spec/95_test_vectors.md V83 to V99) -/

/-- V83: the greatest pc, and HALTED_END after it. -/
theorem test_pc_past_end :
    seen record (Sys2Proof.core.run 2 (machine Config.default 0 0xE90201FF#32 [(1, 0xFFFFFFFF#32)] [])) =
      some (.haltedEnd, 0, 0, 0, 0x100000102, 1) := by decide

/-- V84: MISALIGNED_FETCH inside the stream. -/
theorem test_misaligned_fetch :
    seen record (Sys2Proof.core.run 2 (program Config.default [0xEB000002#32, 0x01000000#32])) =
      some (.faulted, 5, 2, 2, 2, 1) := by decide

/-- V99: past the end a misaligned pc halts. -/
theorem test_end_before_misalignment :
    seen record (Sys2Proof.core.run 2 (program Config.default [0xEB000005#32])) =
      some (.haltedEnd, 0, 0, 0, 5, 1) := by decide

/-- V91: ILLEGAL_OPCODE with the byte. -/
theorem test_illegal_opcode :
    seen record (step (program Config.default [0xFF010203#32])) = some (.faulted, 1, 0, 0xFF, 0, 0) := by decide

/-- V93: f1 is checked first. -/
theorem test_illegal_register :
    seen record (step (program Config.default [0x01402003#32])) = some (.faulted, 2, 0, 65600, 0, 0) := by decide

/-- V95. -/
theorem test_empty_stream :
    seen record (step (program Config.default [])) = some (.haltedEnd, 0, 0, 0, 0, 0) := by decide

/-- V96. -/
theorem test_cap_of_zero :
    seen record (step (program { Config.default with maxSteps := some 0 } [0x01010203#32])) =
      some (.haltedLimit, 0, 0, 0, 0, 0) := by decide

/-- V97: a word that is never fetched raises nothing. -/
theorem test_unfetched_word :
    seen record (Sys2Proof.core.run 2 (program Config.default [0xEB000008#32, 0x00000000#32])) =
      some (.haltedEnd, 0, 0, 0, 8, 1) := by decide

/-- V98: the cap is checked before the decode. -/
theorem test_cap_before_decode :
    seen record (step (program { Config.default with maxSteps := some 0 } [0x04020100#32])) =
      some (.haltedLimit, 0, 0, 0, 0, 0) := by decide

/-- UNIMPLEMENTED for a byte of an extended map (spec/40_execution_kernel.md R106, spec/60_exceptions.md R211). -/
theorem test_unimplemented :
    seen record (step (program { Config.default with opcodeMap := mapWith [] [(0x0C#8, .dss)] } [0x0C010203#32])) =
      some (.faulted, 6, 0, 0x0C, 0, 0) := by decide

/-- The last operation of P4: after DIVIDE_BY_ZERO there is no step, and a new run is a reset. -/
theorem test_faulted_is_final :
    (match Sys2Proof.core.run 2 (program Config.default [0x04020100#32]) with
      | .fault (.stopped .faulted) => true
      | _ => false) = true ∧
    newRun (machine Config.default 0 0x04020100#32 [(1, 7#32)] []) =
      program Config.default [0x04020100#32] := by decide

theorem test_placed_word_runs :
    seen (fun t => (t.reg 1, t.pc)) (step (State.reset.withFetchWord 32 0x81010005)) = some (5#32, 4) := by decide

/-! ### The toolchain (spec/30_encoding.md R85 to R96) -/

/-- S8 and S1: mixed case, commas and a comment. -/
theorem test_assemble_scenario :
    assembleWords OpcodeMap.default "start: lli r1, 5 ; five\n add R2, r0 r1\n j start".toList =
      .ok [0x92010005#32, 0x01020001#32, 0xEB000000#32] := by decide

/-- S5: the label values are 0 and 8. -/
theorem test_labels :
    labelPass 0 [] (lex "a: ADD r1, r1, r1\nADD r2, r2, r2\nb: J a".toList) =
      .ok [(['b'], 8), (['a'], 0)] := by decide

/-- S6: SIGNED folds into the field, and the disassembler writes it unsigned. -/
theorem test_round_trip_example :
    assemble OpcodeMap.default "ADDI r1, r0, -1".toList = .ok [0x81#8, 0x01#8, 0x00#8, 0xFF#8] ∧
    disassemble OpcodeMap.default [0x81#8, 0x01#8, 0x00#8, 0xFF#8] = .ok "ADDI r1, r0, 255\n".toList ∧
    assemble OpcodeMap.default "ADDI r1, r0, 255\n".toList = .ok [0x81#8, 0x01#8, 0x00#8, 0xFF#8] := by decide

theorem test_hex_is_masked :
    assembleWords OpcodeMap.default "J 0x1000008".toList = .ok [0xEB000008#32] := by decide

/-- The errors of spec/30_encoding.md R92. -/
theorem test_assembly_errors :
    assembleWords OpcodeMap.default "ADD r1, r2".toList = .error ⟨.insufficientOperands, 1, 4⟩ ∧
    assembleWords OpcodeMap.default "FOO r1".toList = .error ⟨.unknownOpcode, 1, 1⟩ ∧
    assembleWords OpcodeMap.default "J nowhere".toList = .error ⟨.unresolvedLabel, 1, 2⟩ ∧
    assembleWords OpcodeMap.default "ADD r1, r2, r32".toList = .error ⟨.badRegister, 1, 4⟩ := by decide

/-- The three errors of decision D27. -/
theorem test_assembly_errors_of_the_spec :
    assembleWords OpcodeMap.default "ADD r1, 2, r3".toList = .error ⟨.wrongOperand, 1, 3⟩ ∧
    assembleWords OpcodeMap.default "J 0 r1".toList = .error ⟨.strayOperand, 1, 3⟩ ∧
    assembleWords OpcodeMap.default "a:\na: J a".toList = .error ⟨.duplicateLabel, 2, 1⟩ := by decide

/-- The model's choice where two errors meet, log entry 4: the leftmost operand's error is reported. -/
theorem test_first_operand_error :
    assembleWords OpcodeMap.default "ADD 1".toList = .error ⟨.wrongOperand, 1, 2⟩ := by decide

theorem test_disassembler_fails :
    disassemble OpcodeMap.default [0x00#8, 0#8, 0#8, 0#8] = .error (.illegalOpcode 0x00#8) := by decide

/-! ### Witnesses: concrete states and operands that meet a statement's hypotheses -/

/-- ADD r1, r2, r3 at pc 0, one word long. -/
def adding : State := machine Config.default 0 0x01010203#32 [(2, 7#32)] []

/-- The configuration of `adding`, with a cap. -/
def capped (n : Nat) : Config := { streamAt Config.default 0 0x01010203#32 with maxSteps := some n }

/-- A state that fetches, from what can be decided of it. -/
theorem fetches_of (s : State)
    (h : s.status = .running ∧ s.pc + 4 ≤ s.cfg.imemLen ∧ capReached s = false ∧ s.pc % 4 = 0) : Fetches s :=
  ⟨h.1, h.2.1, (capReached_false_iff s).mp h.2.2.1, h.2.2.2⟩

/-- A running state without a cap that meets the invariant, from what can be decided of it. -/
theorem invariant_of (s : State)
    (h : s.cfg.wellFormed = true ∧ s.regs[0] = 0#32 ∧ s.pc ≤ pcMax ∧ Memory.wf s.dmem = true ∧
      Memory.within s.cfg.memSize s.dmem = true ∧ (s.faultCause = .noFault ∧ s.faultPc = 0 ∧ s.faultInfo = 0) ∧
      s.status = .running ∧ s.cfg.maxSteps = none) : Invariant s := by
  obtain ⟨h1, h2, h3, h4, h5, h6, h7, h8⟩ := h
  exact ⟨h1, h2, h3, h4, h5, fun _ => h6, by simp [h7], by simp [h7], by simp [h8]⟩

/-- An outcome is a next state, decided. -/
theorem next_of {o : Host.Outcome State Fault Refusal} (h : (seen (fun _ => ()) o).isSome = true) :
    ∃ t, o = .next t := by
  cases o <;> simp [seen] at h ⊢

theorem witness_ResetSetsEveryPieceOfState : 0 < Config.default.memSize ∧ 255 < Config.default.memSize := by
  decide

theorem witness_InvariantHoldsAfterReset :
    Config.default.wellFormed = true ∧ (capped 3).wellFormed = true := by decide

theorem witness_EveryStepKeepsInvariant : Invariant adding ∧ ∃ t, step adding = .next t :=
  ⟨invariant_of _ (by decide), next_of (by decide)⟩

theorem witness_DecodeInvertsEncode :
    OpcodeMap.default.injective = true ∧ (mapWith [(.mul, 0x03), (.mulh, 0x02)] []).injective = true := by decide

theorem witness_EncodeInvertsDecode : decode OpcodeMap.default 0xEB0ABCDE#32 = .ok (.j 0x0ABCDE#24) := by decide

/-- NOT r3, r1 with f3 = 32, the least illegal value; SEQZ with the greatest. -/
theorem witness_IllegalRegisterFieldsFault_illegal :
    (Fetches (machine Config.default 0 0x24030120#32 [] []) ∧
      (machine Config.default 0 0x24030120#32 [] []).cfg.opcodeMap.slot
        (opcodeByte (wordAtPc (machine Config.default 0 0x24030120#32 [] []))) = .core .not ∧
      firstIllegalRegister Mnemonic.not.shape (wordAtPc (machine Config.default 0 0x24030120#32 [] [])) =
        some (3, 32)) ∧
    (Fetches (machine Config.default 0 0x0B01FFFF#32 [] []) ∧
      (machine Config.default 0 0x0B01FFFF#32 [] []).cfg.opcodeMap.slot
        (opcodeByte (wordAtPc (machine Config.default 0 0x0B01FFFF#32 [] []))) = .core .seqz ∧
      firstIllegalRegister Mnemonic.seqz.shape (wordAtPc (machine Config.default 0 0x0B01FFFF#32 [] [])) =
        some (2, 65535)) :=
  ⟨⟨fetches_of _ (by decide), by decide, by decide⟩, fetches_of _ (by decide), by decide, by decide⟩

/-- Every register field at 31, the greatest legal value. -/
theorem witness_IllegalRegisterFieldsFault_legal :
    OpcodeMap.default.slot (opcodeByte 0x241F1F1F#32) = .core .not ∧
    firstIllegalRegister Mnemonic.not.shape 0x241F1F1F#32 = none := by decide

theorem witness_UnassignedOpcodeFaults :
    Fetches (machine Config.default 0 0xFF010203#32 [] []) ∧
    (machine Config.default 0 0xFF010203#32 [] []).cfg.opcodeMap.classify
      (opcodeByte (wordAtPc (machine Config.default 0 0xFF010203#32 [] []))) = none :=
  ⟨fetches_of _ (by decide), by decide⟩

/-- A default core with one more opcode byte, and the word to fetch. -/
def extended (w : Word) : State :=
  machine { Config.default with opcodeMap := mapWith [] [(0x0C#8, .dss)] } 0 w [] []

/-- Both cases: legal register fields at 31, and a field of 32. -/
theorem witness_OpcodeWithoutExecutorFaults :
    (Fetches (extended 0x0C1F1F1F#32) ∧ (extended 0x0C1F1F1F#32).cfg.opcodeMap.slot
        (opcodeByte (wordAtPc (extended 0x0C1F1F1F#32))) = .extension .dss ∧
      firstIllegalRegister .dss (wordAtPc (extended 0x0C1F1F1F#32)) = none) ∧
    (Fetches (extended 0x0C1F1F20#32) ∧ (extended 0x0C1F1F20#32).cfg.opcodeMap.slot
        (opcodeByte (wordAtPc (extended 0x0C1F1F20#32))) = .extension .dss ∧
      firstIllegalRegister .dss (wordAtPc (extended 0x0C1F1F20#32)) = some (3, 32)) :=
  ⟨⟨fetches_of _ (by decide), by decide, by decide⟩, fetches_of _ (by decide), by decide, by decide⟩

theorem witness_StepRunsDecodedInstruction :
    Fetches adding ∧ decode adding.cfg.opcodeMap (wordAtPc adding) = .ok (.add 1 2 3) :=
  ⟨fetches_of _ (by decide), by decide⟩

/-- The last whole word of a stream. -/
theorem witness_FetchIsBigEndian :
    (machine Config.default 20 0xE1010208#32 [] []).pc % 4 = 0 ∧
    (machine Config.default 20 0xE1010208#32 [] []).pc + 4 = (machine Config.default 20 0xE1010208#32 [] []).cfg.imemLen := by
  decide

theorem witness_NoStepUnlessRunning :
    (∃ t, step adding = .next t) ∧ (haltWith adding .haltedEnd).status ≠ .running :=
  ⟨next_of (by decide), by decide⟩

/-- The pc just at the end, and past it; and an empty stream. -/
theorem witness_PcPastEndHalts :
    (adding.status = .running ∧ ({ adding with pc := 4 } : State).cfg.imemLen = 4) ∧
    adding.cfg.imemLen ≤ ({ adding with pc := 5 } : State).pc ∧ Config.default.imemLen = 0 := by decide

/-- The last byte of a stream below its end. -/
theorem witness_MisalignedFetchFaults :
    ({ adding with pc := 3 } : State).status = .running ∧
    ({ adding with pc := 3 } : State).pc < ({ adding with pc := 3 } : State).cfg.imemLen ∧
    (∀ n, ({ adding with pc := 3 } : State).cfg.maxSteps = some n → ({ adding with pc := 3 } : State).retired < n) ∧
    ({ adding with pc := 3 } : State).pc % 4 ≠ 0 :=
  ⟨by decide, by decide, (capReached_false_iff _).mp (by decide), by decide⟩

theorem witness_FaultsArePrecise :
    ∃ t, step (machine Config.default 0 0x04010203#32 [] []) = .next t ∧ t.status = .faulted := by
  obtain ⟨t, ht⟩ := next_of (o := step (machine Config.default 0 0x04010203#32 [] [])) (by decide)
  have h : seen State.status (step (machine Config.default 0 0x04010203#32 [] [])) = some .faulted := by decide
  exact ⟨t, ht, by rw [ht] at h; exact Option.some.inj h⟩

/-- A running state in the invariant; a register ADD r1 does not write; a cell that SB to cell 255 does not. -/
theorem witness_EveryStepHaltsFaultsOrCompletesOne :
    (Invariant adding ∧ adding.status = .running) ∧ writes (.add 1 2 3) ≠ some 2 ∧
    Instr.sb 1 2 255#8 = storeOf .byte 1 2 255#8 ∧ 254 ≠ addressOf .byte adding 3 255#8 :=
  ⟨⟨invariant_of _ (by decide), by decide⟩, by decide, rfl, by decide⟩

/-- First clause, at the least `RETIRED` that reaches the cap. -/
theorem witness_CapLimitsEveryRun_reached :
    ({ adding with cfg := capped 0 } : State).status = .running ∧
    ({ adding with cfg := capped 0 } : State).pc < (capped 0).imemLen ∧ (capped 0).maxSteps = some 0 ∧
    0 ≤ ({ adding with cfg := capped 0 } : State).retired := by decide

/-- Second clause, with a run that ends in HALTED_LIMIT after one instruction of a jump to itself. -/
theorem witness_CapLimitsEveryRun_capped :
    ∃ t, Sys2Proof.core.run 2 (program { Config.default with maxSteps := some 1 } [0xEB000000#32]) = .next t ∧
      t.status = .haltedLimit := by
  have h : seen State.status (Sys2Proof.core.run 2 (program { Config.default with maxSteps := some 1 }
    [0xEB000000#32])) = some .haltedLimit := by decide
  obtain ⟨t, ht⟩ := next_of (o := Sys2Proof.core.run 2 (program { Config.default with maxSteps := some 1 }
    [0xEB000000#32])) (by decide)
  exact ⟨t, ht, by rw [ht] at h; exact Option.some.inj h⟩

/-- Third clause. -/
theorem witness_CapLimitsEveryRun_free :
    Config.default.maxSteps = none ∧ ∃ t, Sys2Proof.core.run 1 (State.ofConfig Config.default) = .next t :=
  ⟨by decide, next_of (o := Sys2Proof.core.run 1 (State.ofConfig Config.default)) (by decide)⟩

theorem witness_CappedRunsEnd : (capped 0).wellFormed = true ∧ (capped 0).maxSteps = some 0 := by decide

theorem witness_OnlyDestinationRegisterChanges :
    ∃ t, step adding = .next t ∧ t.reg 1 ≠ adding.reg 1 := by
  have h : seen (fun t => t.reg 1) (step adding) = some 7#32 := by decide
  obtain ⟨t, ht⟩ := next_of (o := step adding) (by decide)
  rw [ht] at h
  exact ⟨t, ht, by rw [show t.reg 1 = 7#32 from Option.some.inj h]; decide⟩

/-- SB to the last cell. -/
def storing : State := machine Config.default 0 0xC90102FF#32 [(1, 1#32)] []

theorem witness_OnlyStoresChangeCells : ∃ t, step storing = .next t ∧ t.cell 255 ≠ storing.cell 255 := by
  have h : seen (fun t => t.cell 255) (step storing) = some 1#32 := by decide
  obtain ⟨t, ht⟩ := next_of (o := step storing) (by decide)
  rw [ht] at h
  exact ⟨t, ht, by rw [show t.cell 255 = 1#32 from Option.some.inj h]; decide⟩

theorem witness_ConfigurationNeverChanges : ∃ t, Sys2Proof.core.run 1 adding = .next t :=
  next_of (o := Sys2Proof.core.run 1 adding) (by decide)

/-- A divisor of 0, and the least that is not. -/
theorem witness_division :
    adding.reg 3 = 0#32 ∧ (machine Config.default 0 0x04010203#32 [(3, 1#32)] []).reg 3 ≠ 0#32 ∧
    (1 : Reg) ≠ 0 := by decide

/-- The least and the greatest illegal value of NOT's f3 and of SEQZ's f2. -/
theorem witness_illegal_fields :
    32 ≤ (32#8).toNat ∧ 32 ≤ (255#8).toNat ∧ 32 ≤ (32#16).toNat ∧ 32 ≤ (65535#16).toNat := by decide

/-- Addresses 255 and 256 of LB and SB, and of LH, LW, SH and SW, the boundary of `MEM_SIZE`. -/
theorem witness_accesses :
    Memory.wf storing.dmem = true ∧
    (byteAddress storing 0 255#8 = 255 ∧ byteAddress storing 0 255#8 < storing.cfg.memSize) ∧
    (byteAddress storing 1 255#8 = 256 ∧ storing.cfg.memSize ≤ byteAddress storing 1 255#8) ∧
    (wordAddress (machine Config.default 0 0#32 [(1, 255#32)] []) 1 0#8 = 255 ∧
      wordAddress (machine Config.default 0 0#32 [(1, 255#32)] []) 1 0#8 < 256) ∧
    (wordAddress (machine Config.default 0 0#32 [(1, 255#32)] []) 1 1#8 = 256 ∧
      (machine Config.default 0 0#32 [(1, 255#32)] []).cfg.memSize ≤
        wordAddress (machine Config.default 0 0#32 [(1, 255#32)] []) 1 1#8) := by decide

theorem witness_OutOfRangeAccessFaults :
    storing.cfg.memSize ≤ addressOf .byte storing 1 255#8 ∧ storing.cfg.memSize ≤ addressOf .word storing 0 0xFF#8 := by
  decide

/-- The most negative offset with a base of 0, which gives the least such address. -/
theorem witness_NegativeOffsetsNeverReachMemory :
    Width.half ≠ .byte ∧ 0x80 ≤ (0x80#8).toNat ∧ addressOf .half storing 0 0x80#8 = 2 ^ 32 - 128 ∧
    storing.cfg.memSize ≤ 2 ^ 32 - 128 := by decide

/-- A store of one cell, then a load of it (`off` = 255) and of another (`off` = 254). -/
theorem witness_LoadSeesLastStore :
    (3 : Reg) ≠ 0 ∧ Memory.wf storing.dmem = true ∧ addressOf .byte storing 2 255#8 < storing.cfg.memSize ∧
    ∃ t, exec (storeOf .byte 1 2 255#8) storing = .next t ∧ addressOf .byte t 0 255#8 < storing.cfg.memSize ∧
      addressOf .byte t 0 254#8 < storing.cfg.memSize := by
  refine ⟨by decide, by decide, by decide, ?_⟩
  have h : seen (fun t => (addressOf .byte t 0 255#8, addressOf .byte t 0 254#8))
    (exec (storeOf .byte 1 2 255#8) storing) = some (255, 254) := by decide
  obtain ⟨t, ht⟩ := next_of (o := exec (storeOf .byte 1 2 255#8) storing) (by decide)
  rw [ht] at h
  have h' := Option.some.inj h
  exact ⟨t, ht, by rw [(Prod.mk.inj h').1]; decide, by rw [(Prod.mk.inj h').2]; decide⟩

theorem witness_SignedLessEqualBranchFollowsItsMode :
    adding.cfg.bltesMode = .strict ∧
    (machine { Config.default with bltesMode := .lessEqual } 0 0#32 [] []).cfg.bltesMode = .lessEqual := by decide

/-- A call from the greatest pc below 2^32, and a callee that keeps the link. -/
theorem witness_ReturnResumesAfterCall :
    (31 : Reg) ≠ 0 ∧ ({ adding with pc := 2 ^ 32 - 1 } : State).pc < 2 ^ 32 ∧
    ∃ t, exec (.jal 31 12#16) { adding with pc := 2 ^ 32 - 1 } = .next t ∧ t.reg 31 = t.reg 31 :=
  ⟨by decide, by decide, by
    obtain ⟨t, ht⟩ := next_of (o := exec (.jal 31 12#16) { adding with pc := 2 ^ 32 - 1 }) (by decide)
    exact ⟨t, ht, rfl⟩⟩

/-- A stream that disassembles, and a source text with a label that assembles under the default map. -/
theorem witness_ReassemblyGivesTheSameBytes :
    decodeStream OpcodeMap.default [0x81#8, 0x01#8, 0x00#8, 0xFF#8, 0xEB#8, 0x00#8, 0x00#8, 0x00#8] =
      .ok [.addi 1 0 255#8, .j 0#24] ∧
    disassemble OpcodeMap.default [0xEB#8, 0xFF#8, 0xFF#8, 0xFF#8] = .ok "J 16777215\n".toList ∧
    OpcodeMap.default.injective = true ∧
    assemble OpcodeMap.default "a: addi r1, r0, -1\nJ a".toList =
      .ok [0x81#8, 0x01#8, 0x00#8, 0xFF#8, 0xEB#8, 0x00#8, 0x00#8, 0x00#8] := by decide

/-- HEX digits that have a value, and a further digit. -/
theorem witness_ImmediateTokensAreMaskedToTheirField :
    hexValue ['1', 'f'] = some 31 ∧ hexDigit 'F' = some 15 ∧ hexValue ['1', 'f', 'F'] = some 511 := by decide

/-- One state for each cause code 1 to 6, whose step ends with that code. -/
theorem witness_FaultCausesFollowTheirTable :
    ([program Config.default [0xFF010203#32], program Config.default [0x01402003#32],
      program Config.default [0x04020100#32], program Config.default [0xC30000FF#32], { adding with pc := 3 }, extended 0x0C1F1F1F#32].map fun s =>
        seen (fun t => (t.status, t.faultCause.code)) (step s)) =
      [some (.faulted, 1), some (.faulted, 2), some (.faulted, 3), some (.faulted, 4), some (.faulted, 5), some (.faulted, 6)] ∧
    adding.cfg.opcodeMap.extensions = [] := by decide

/-- `J b`, then the declaration of `b`. -/
theorem witness_LabelsAreFourTimesTheOpcodesBefore :
    labelPass 0 [] ([⟨.opcode .j, 1, 1⟩, ⟨.identifier ['b'], 1, 2⟩] ++ ⟨.label ['b'], 2, 1⟩ :: []) =
      .ok [(['b'], 4)] := by decide

end Sys2Proof.Tests
end

section
/-!
SUPPORT. What an instruction can ask for and which faults a step can take, with their bounds, and from these
the invariant of Safety.lean after every step.
-/

namespace Sys2Proof

/-! ### The field a rejected word is rejected for (spec/30_encoding.md R68, R69) -/

/-- A register field that is rejected has a number of at most 3 and holds at most 16 bits. -/
def DecodeError.FieldInRange : DecodeError → Prop
  | .illegalRegister k value => k ≤ 3 ∧ value < 2 ^ 16
  | _ => True

/-- Whatever the decoder's part `r` rejects, it rejects for a field in range. -/
def ErrorsInRange {α : Type} (r : Except DecodeError α) : Prop :=
  ∀ e, r = .error e → e.FieldInRange

theorem errorsInRange_ok {α : Type} (x : α) : ErrorsInRange (.ok x) :=
  fun _ h => nomatch h

theorem errorsInRange_error {α : Type} {e : DecodeError} (he : e.FieldInRange) :
    ErrorsInRange (.error e : Except DecodeError α) := by
  rintro _ ⟨⟩
  exact he

theorem ErrorsInRange.bind {α β : Type} {r : Except DecodeError α} {f : α → Except DecodeError β}
    (hr : ErrorsInRange r) (hf : ∀ x, ErrorsInRange (f x)) : ErrorsInRange (r >>= f) := by
  cases r with
  | ok x => exact hf x
  | error e => exact errorsInRange_error (hr e rfl)

theorem errorsInRange_regField {k v : Nat} (hk : k ≤ 3) (hv : v < 2 ^ 16) : ErrorsInRange (regField k v) := by
  unfold regField
  split
  · exact errorsInRange_ok _
  · exact errorsInRange_error ⟨hk, hv⟩

/-- An 8-bit register field. -/
theorem errorsInRange_byteField {k : Nat} (hk : k ≤ 3) (v : BitVec 8) : ErrorsInRange (regField k v.toNat) :=
  errorsInRange_regField hk (Nat.lt_trans v.isLt (by decide))

section Shapes
variable {α : Type} (w : Word)

theorem errorsInRange_dssFields (make : Reg → Reg → Reg → α) : ErrorsInRange (dssFields w make) :=
  (errorsInRange_byteField (by decide) _).bind fun _ =>
    (errorsInRange_byteField (by decide) _).bind fun _ =>
      (errorsInRange_byteField (by decide) _).bind fun _ => errorsInRange_ok _

theorem errorsInRange_dsiFields (make : Reg → Reg → BitVec 8 → α) : ErrorsInRange (dsiFields w make) :=
  (errorsInRange_byteField (by decide) _).bind fun _ =>
    (errorsInRange_byteField (by decide) _).bind fun _ => errorsInRange_ok _

theorem errorsInRange_dsFields (make : Reg → Reg → α) : ErrorsInRange (dsFields w make) :=
  (errorsInRange_byteField (by decide) _).bind fun _ =>
    (errorsInRange_regField (by decide) (field15to0 w).isLt).bind fun _ => errorsInRange_ok _

theorem errorsInRange_diFields (make : Reg → BitVec 16 → α) : ErrorsInRange (diFields w make) :=
  (errorsInRange_byteField (by decide) _).bind fun _ => errorsInRange_ok _

theorem errorsInRange_iFields (make : BitVec 24 → α) : ErrorsInRange (iFields w make) :=
  errorsInRange_ok _

end Shapes

theorem errorsInRange_decodeOperands (w : Word) (op : Mnemonic) : ErrorsInRange (decodeOperands w op) := by
  cases op with
  | add | mul | mulh | div | rem | slt | slts | and | or | xor | not | sll | srl | sra =>
    exact errorsInRange_dssFields w _
  | seqz => exact errorsInRange_dsFields w _
  | lui | lli | jal => exact errorsInRange_diFields w _
  | j => exact errorsInRange_iFields w _
  | addi | slti | sltsi | andi | ori | xori | slli | srli | srai | lb | lh | lw | sb | sh | sw
  | beq | bneq | blt | ble | blts | bltes | jalr => exact errorsInRange_dsiFields w _

theorem errorsInRange_checkFields (w : Word) (sh : Shape) : ErrorsInRange (checkFields w sh) := by
  cases sh with
  | dss => exact errorsInRange_dssFields w fun _ _ _ => ()
  | dsi => exact errorsInRange_dsiFields w fun _ _ _ => ()
  | ds => exact errorsInRange_dsFields w fun _ _ => ()
  | di => exact errorsInRange_diFields w fun _ _ => ()
  | i => exact errorsInRange_iFields w fun _ => ()

theorem errorsInRange_decode (m : OpcodeMap) (w : Word) : ErrorsInRange (decode m w) := by
  unfold decode
  split
  · exact errorsInRange_error trivial
  · exact errorsInRange_decodeOperands w _
  · exact (errorsInRange_checkFields w _).bind fun _ => errorsInRange_error trivial

theorem errorsInRange_decodeBytes (m : OpcodeMap) (bytes : List Byte) : ErrorsInRange (decodeBytes m bytes) := by
  unfold decodeBytes
  split
  · exact (errorsInRange_decode m _).bind fun _ => errorsInRange_ok _
  · exact errorsInRange_error trivial

end Sys2Proof

namespace Sys2Proof.Machine

/-! ### The faults a step raises -/

/-- The fault fits the record: it has a cause, and 33 bits hold its value (spec/10_state.md R29). -/
structure Raised.Recordable (f : Raised) : Prop where
  cause : f.cause ≠ .noFault
  info : f.info < 2 ^ 33

/-- A rejected word that is not refused raises a fault that fits the record. -/
theorem rejectWord_next {s t : State} {e : DecodeError} (he : e.FieldInRange) (h : rejectWord s e = .next t) :
    ∃ f : Raised, t = raiseFault s f ∧ f.Recordable := by
  cases e with
  | truncatedWord => cases h
  | illegalOpcode b | unimplemented b =>
    cases h
    exact ⟨_, rfl, nofun, Nat.lt_trans b.isLt (by decide)⟩
  | illegalRegister k value =>
    cases h
    obtain ⟨hk, hvalue⟩ := he
    exact ⟨_, rfl, nofun, by simp only [registerInfo]; omega⟩

/-! ### Effective addresses (spec/43_load_store.md R171) -/

theorem byteAddress_lt (s : State) (base : Reg) (imm : BitVec 8) : byteAddress s base imm < 2 ^ 33 := by
  have hbase := (s.reg base).isLt
  have himm := imm.isLt
  simp only [byteAddress, Laws.zext_eq]
  omega

theorem wordAddress_lt (s : State) (base : Reg) (imm : BitVec 8) : wordAddress s base imm < 2 ^ 33 := by
  have hbase := (s.reg base).isLt
  have himm := Laws.sext8_lt imm
  simp only [wordAddress]
  omega

/-! ### How an instruction ends -/

/-- The effect stores only inside the data memory, and jumps to no pc above the greatest. -/
structure Effect.InBounds (s : State) (e : Effect) : Prop where
  store : ∀ a width v, e.memw = some (a, width, v) → a < s.cfg.memSize
  jump : e.jump = none ∨ nextPc s.pc e.jump ≤ pcMax

/-- An instruction's two ends: an effect in bounds is committed, or a fault that fits the record is taken. -/
inductive InstructionEnd (s : State) : Host.Outcome State Fault Refusal → Prop where
  | completed {e : Effect} (he : e.InBounds s) : InstructionEnd s (.next (commit s e))
  | faulted {f : Raised} (hf : f.Recordable) : InstructionEnd s (.next (raiseFault s f))

theorem instructionEnd_writeResult (s : State) (rd : Reg) (v : Word) :
    InstructionEnd s (writeResult s rd v) :=
  .completed ⟨nofun, .inl rfl⟩

/-- DIV and REM: a divisor of 0 faults, any other gives a register write. -/
theorem instructionEnd_divide (s : State) (rd : Reg) (divisor v : Word) :
    InstructionEnd s (complete s
      (if divisor = 0#32 then .error ⟨.divideByZero, 0⟩ else .ok { regw := some (rd, v) })) := by
  split
  · exact .faulted ⟨nofun, by decide⟩
  · exact .completed ⟨nofun, .inl rfl⟩

theorem instructionEnd_loadCell (s : State) (rd : Reg) {ea : Nat} (width : Width) (hea : ea < 2 ^ 33) :
    InstructionEnd s (loadCell s rd ea width) := by
  rw [loadCell_eq]
  split
  · exact .faulted ⟨nofun, hea⟩
  · exact .completed ⟨nofun, .inl rfl⟩

theorem instructionEnd_storeCell (s : State) (v : Word) {ea : Nat} (width : Width) (hea : ea < 2 ^ 33) :
    InstructionEnd s (storeCell s v ea width) := by
  rw [storeCell_eq]
  split
  · exact .faulted ⟨nofun, hea⟩
  · next hin =>
    refine .completed ⟨?_, .inl rfl⟩
    rintro _ _ _ ⟨⟩
    exact Nat.lt_of_not_le hin

/-- An instruction that stores nothing and jumps to the landing address `next`. -/
theorem instructionEnd_jump (s : State) (regw : Option (Reg × Word)) {jump : Option Int} {next : Nat}
    (hjump : nextPc s.pc jump = next) (hnext : next ≤ pcMax) :
    InstructionEnd s (complete s (.ok { regw := regw, jump := jump })) :=
  .completed ⟨nofun, .inr (hjump ▸ hnext)⟩

/-- A jump to the absolute target in an immediate field (spec/44_control_transfer.md R190, R198, R199). -/
theorem instructionEnd_jumpImmediate (s : State) (regw : Option (Reg × Word)) {n : Nat} (imm : BitVec n)
    (hn : n ≤ 24) :
    InstructionEnd s (complete s (.ok { regw := regw, jump := some ((zext imm : Int) - 4) })) := by
  have himm : imm.toNat < 2 ^ 24 := Nat.lt_of_lt_of_le imm.isLt (Nat.pow_le_pow_right (by decide) hn)
  exact instructionEnd_jump s regw (nextPc_target s.pc imm.toNat) (by unfold pcMax; omega)

theorem instructionEnd_branch (s : State) (taken : Bool) (imm : BitVec 8) :
    InstructionEnd s (branch s taken imm) := by
  cases taken with
  | false => exact .completed ⟨nofun, .inl rfl⟩
  | true => exact instructionEnd_jumpImmediate s none imm (by decide)

/-- JALR attains the greatest pc (spec/00_scope.md R7). -/
theorem instructionEnd_execJalr (s : State) (rd rs1 : Reg) (imm : BitVec 8) :
    InstructionEnd s (execJalr rd rs1 imm s) := by
  have hsource := (jalrSource s rd rs1).isLt
  have himm := imm.isLt
  exact instructionEnd_jump s _ (nextPc_natCast s.pc _) (by simp only [Laws.zext_eq, pcMax]; omega)

theorem instructionEnd_exec (i : Instr) (s : State) : InstructionEnd s (exec i s) := by
  cases i with
  | add | mul | mulh | slt | slts | seqz | and | or | xor | not | sll | srl | sra
  | addi | slti | sltsi | lui | lli | andi | ori | xori | slli | srli | srai =>
    exact instructionEnd_writeResult s _ _
  | div | rem => exact instructionEnd_divide s _ _ _
  | lb rd rs1 imm => exact instructionEnd_loadCell s rd _ (byteAddress_lt s rs1 imm)
  | lh rd rs1 imm | lw rd rs1 imm => exact instructionEnd_loadCell s rd _ (wordAddress_lt s rs1 imm)
  | sb rs2 rs1 imm => exact instructionEnd_storeCell s _ _ (byteAddress_lt s rs1 imm)
  | sh rs2 rs1 imm | sw rs2 rs1 imm => exact instructionEnd_storeCell s _ _ (wordAddress_lt s rs1 imm)
  | beq | bneq | blt | ble | blts | bltes => exact instructionEnd_branch s _ _
  | jalr rd rs1 imm => exact instructionEnd_execJalr s rd rs1 imm
  | jal rd imm => exact instructionEnd_jumpImmediate s _ imm (by decide)
  | j imm => exact instructionEnd_jumpImmediate s _ imm (by decide)

/-! ### The invariant after each of a step's ends -/

/-- A register write leaves r0's storage alone (spec/10_state.md R21). -/
theorem setReg_regs_zero (s : State) (i : Reg) (v : Word) : (s.setReg i v).regs[0] = s.regs[0] := by
  unfold State.setReg
  split
  · rfl
  · next hi => exact Vector.getElem_set_ne i.isLt _ fun h => hi (Fin.ext h)

theorem commitReg_regs_zero (s : State) (w : Option (Reg × Word)) : (commitReg s w).regs[0] = s.regs[0] := by
  cases w with
  | none => rfl
  | some w => exact setReg_regs_zero s w.1 w.2

/-- A legal stream has at most 2^24 bytes (spec/20_memory.md R41). -/
theorem Invariant.imemLen_le {s : State} (hs : Invariant s) : s.cfg.imemLen ≤ 2 ^ 24 := by
  have hlaunched := hs.launched
  simp only [Config.wellFormed, Config.streamLengthLegal, Bool.and_eq_true, decide_eq_true_eq] at hlaunched
  omega

theorem Invariant.after_haltedEnd {s : State} (hs : Invariant s) (hrun : s.status = .running)
    (hend : s.cfg.imemLen ≤ s.pc) : Invariant (haltWith s .haltedEnd) where
  __ := hs
  recordClear _ := hs.recordClear (by simp [hrun])
  recordSet := nofun
  endReason := ⟨fun _ => hend, nofun⟩

theorem Invariant.after_haltedLimit {s : State} (hs : Invariant s) (hrun : s.status = .running)
    (hcap : capReached s = true) : Invariant (haltWith s .haltedLimit) where
  __ := hs
  recordClear _ := hs.recordClear (by simp [hrun])
  recordSet := nofun
  endReason := by
    obtain ⟨n, hn, hle⟩ := (capReached_iff s).mp hcap
    exact ⟨nofun, fun _ => ⟨n, hn, Nat.le_antisymm hle (hs.capKept n hn)⟩⟩

theorem Invariant.after_raiseFault {s : State} (hs : Invariant s) {f : Raised} (hf : f.Recordable) :
    Invariant (raiseFault s f) where
  __ := hs
  recordClear h := absurd rfl h
  recordSet _ := ⟨hf.cause, rfl, hf.info⟩
  endReason := ⟨nofun, nofun⟩

theorem wf_commitMem {s : State} (w : Option (Nat × Width × Word)) (h : Memory.wf s.dmem = true) :
    Memory.wf (commitMem s w).dmem = true := by
  rcases w with _ | ⟨a, width, v⟩
  · exact h
  · exact Memory.wf_write _ _ _ h

theorem Effect.InBounds.within_commitMem {s : State} {e : Effect} (he : e.InBounds s)
    (h : Memory.within s.cfg.memSize s.dmem = true) :
    Memory.within s.cfg.memSize (commitMem s e.memw).dmem = true := by
  cases hw : e.memw with
  | none => exact h
  | some store => exact Memory.within_write _ _ _ _ (he.store store.1 store.2.1 store.2.2 hw) h

/-- An instruction completes only below the cap and inside the stream, so there is room for one more. -/
theorem Invariant.after_commit {s : State} (hs : Invariant s) (hrun : s.status = .running)
    (hpc : s.pc < s.cfg.imemLen) (hcap : capReached s = false) {e : Effect} (he : e.InBounds s) :
    Invariant (commit s e) where
  launched := by simpa using hs.launched
  zeroRegister := by simpa [commitReg_regs_zero] using hs.zeroRegister
  pcBound := by
    rcases he.jump with hnone | hjump
    · have hlen := hs.imemLen_le
      simp only [commit_pc, hnone, nextPc_none, pcMax]
      omega
    · exact hjump
  dmemCanonical := by simpa using wf_commitMem e.memw hs.dmemCanonical
  dmemInRange := by simpa using he.within_commitMem hs.dmemInRange
  recordClear := by simpa using hs.recordClear
  recordSet := by simp [hrun]
  endReason := by simp [hrun]
  capKept n hn := (capReached_false_iff s).mp hcap n (by simpa using hn)

/-- Each case of `step_cases` that answers a next state keeps the invariant. -/
theorem Invariant.after_step {s t : State} (hs : Invariant s) (hstep : step s = .next t) : Invariant t := by
  rcases step_cases s with ⟨_, h⟩ | ⟨hrun, hend, h⟩ | ⟨hrun, _, hcap, h⟩ | ⟨_, _, _, _, h⟩ |
    ⟨_, _, _, _, e, hdecode, h⟩ | ⟨hrun, hpc, hcap, _, i, _, _, h⟩
  · cases h.symm.trans hstep
  · cases h.symm.trans hstep
    exact hs.after_haltedEnd hrun hend
  · cases h.symm.trans hstep
    exact hs.after_haltedLimit hrun hcap
  · cases h.symm.trans hstep
    exact hs.after_raiseFault ⟨nofun, Nat.lt_of_le_of_lt hs.pcBound (by decide)⟩
  · obtain ⟨f, rfl, hf⟩ := rejectWord_next (errorsInRange_decodeBytes _ _ e hdecode) (h.symm.trans hstep)
    exact hs.after_raiseFault hf
  · have hend : InstructionEnd s (.next t) := h.symm.trans hstep ▸ instructionEnd_exec i s
    cases hend with
    | completed he => exact hs.after_commit hrun hpc hcap he
    | faulted hf => exact hs.after_raiseFault hf

/-- Settles O3, by the cases of a step. -/
theorem everyStepKeepsInvariant : Obligations.EveryStepKeepsInvariant :=
  fun _ _ => Invariant.after_step

end Sys2Proof.Machine
end

section
/-!
SUPPORT. The state after reset, and what a step that has a next state leaves: the fault record, the registers
and the configuration (spec/10_state.md).
-/

namespace Sys2Proof

/-- A configuration that may be launched holds `MEM_INIT` in canonical form and inside `MEM_SIZE`. -/
theorem Config.memInit_of_wellFormed {cfg : Config} (h : cfg.wellFormed = true) :
    Memory.wf cfg.memInit = true ∧ Memory.within cfg.memSize cfg.memInit = true := by
  simp only [Config.wellFormed, Config.memInitCanonical, Bool.and_eq_true] at h
  obtain ⟨_, hcanonical⟩ := h
  exact hcanonical

theorem Config.wellFormed_default : Config.default.wellFormed = true := by
  decide

/-- Bytes that spell an instruction start with its word (spec/30_encoding.md R60). -/
theorem word_of_decodeBytes {m : OpcodeMap} {bytes rest : List Byte} {i : Instr}
    (h : decodeBytes m bytes = .ok (i, rest)) :
    ∃ b0 b1 b2 b3, bytes = b0 :: b1 :: b2 :: b3 :: rest ∧ decode m (wordOfBytes b0 b1 b2 b3) = .ok i := by
  unfold decodeBytes at h
  split at h
  · next b0 b1 b2 b3 tail =>
    cases hdecode : decode m (wordOfBytes b0 b1 b2 b3) with
    | error e =>
      rw [hdecode] at h
      cases h
    | ok j =>
      rw [hdecode] at h
      cases h
      exact ⟨b0, b1, b2, b3, rfl, hdecode⟩
  · cases h

end Sys2Proof

namespace Sys2Proof.Machine

/-! ### The state after reset (spec/10_state.md R33) -/

theorem cell_ofConfig (cfg : Config) (a : Nat) : (State.ofConfig cfg).cell a = Memory.read cfg.memInit a := rfl

/-- Settles O1, field by field. -/
theorem resetSetsEveryPieceOfState : Obligations.ResetSetsEveryPieceOfState :=
  ⟨fun cfg => ⟨reg_ofConfig cfg, rfl, rfl, rfl, rfl, rfl, rfl, fun a _ => cell_ofConfig cfg a, rfl⟩,
    rfl, cell_ofConfig Config.default⟩

theorem invariant_ofConfig {cfg : Config} (h : cfg.wellFormed = true) : Invariant (State.ofConfig cfg) where
  launched := h
  zeroRegister := by simp
  pcBound := Nat.zero_le _
  dmemCanonical := (Config.memInit_of_wellFormed h).1
  dmemInRange := (Config.memInit_of_wellFormed h).2
  recordClear _ := ⟨rfl, rfl, rfl⟩
  recordSet := nofun
  endReason := ⟨nofun, nofun⟩
  capKept _ _ := Nat.zero_le _

/-- Settles O2: what the launch demands of `MEM_INIT` holds of the cells, and reset sets the rest. -/
theorem invariantHoldsAfterReset : Obligations.InvariantHoldsAfterReset :=
  ⟨fun _ => invariant_ofConfig, invariant_ofConfig Config.wellFormed_default⟩

/-! ### How a step ends -/

/-- Fewer than four bytes are fetched where no whole word of the stream stands at the pc. -/
theorem length_fetchBytes_lt {s : State} (h : s.cfg.imemLen < s.pc + 4) : (fetchBytes s).length < 4 := by
  have hlast : ¬ s.pc + 3 < s.cfg.imemLen := by omega
  rw [fetchBytes, List.length_map]
  exact List.length_filter_lt_length_iff_exists.mpr ⟨3, by simp, by simpa using hlast⟩

/-- The instruction a step executes is the one the word at the pc decodes to (spec/20_memory.md R42). -/
theorem decode_wordAtPc {s : State} {i : Instr} {rest : List Byte}
    (h : decodeBytes s.cfg.opcodeMap (fetchBytes s) = .ok (i, rest)) :
    decode s.cfg.opcodeMap (wordAtPc s) = .ok i := by
  obtain ⟨b0, b1, b2, b3, hbytes, hword⟩ := word_of_decodeBytes h
  have hwhole : s.pc + 4 ≤ s.cfg.imemLen := by
    by_contra hshort
    have hlength := length_fetchBytes_lt (Nat.lt_of_not_le hshort)
    simp only [hbytes, List.length_cons] at hlength
    omega
  cases (fetchBytes_eq s hwhole).symm.trans hbytes
  exact hword

/-- The ends of a step that has a next state: a normal halt, a fault with a cause, or the commit of the effect
of the instruction at the pc (spec/40_execution_kernel.md R102 to R109). -/
inductive StepEnd (s : State) : State → Prop where
  | halted {status : Status} (hstatus : status ≠ .faulted) : StepEnd s (haltWith s status)
  | faulted {f : Raised} (hcause : f.cause ≠ .noFault) : StepEnd s (raiseFault s f)
  | completed {i : Instr} {e : Effect} (hrun : s.status = .running)
      (hdecode : decode s.cfg.opcodeMap (wordAtPc s) = .ok i) (hexec : exec i s = .next (commit s e)) :
      StepEnd s (commit s e)

theorem stepEnd_of_exec {s t : State} {i : Instr} (hrun : s.status = .running)
    (hdecode : decode s.cfg.opcodeMap (wordAtPc s) = .ok i) (hexec : exec i s = .next t) : StepEnd s t := by
  have hend : InstructionEnd s (.next t) := hexec ▸ instructionEnd_exec i s
  cases hend with
  | completed => exact .completed hrun hdecode hexec
  | faulted hf => exact .faulted hf.cause

/-- Each case of `step_cases` that answers a next state is one of the ends. -/
theorem stepEnd_of_step {s t : State} (hstep : step s = .next t) : StepEnd s t := by
  rcases step_cases s with ⟨_, h⟩ | ⟨_, _, h⟩ | ⟨_, _, _, h⟩ | ⟨_, _, _, _, h⟩ |
    ⟨_, _, _, _, e, hdecode, h⟩ | ⟨hrun, _, _, _, i, _, hdecode, h⟩
  · cases h.symm.trans hstep
  · cases h.symm.trans hstep
    exact .halted nofun
  · cases h.symm.trans hstep
    exact .halted nofun
  · cases h.symm.trans hstep
    exact .faulted nofun
  · obtain ⟨f, rfl, hf⟩ := rejectWord_next (errorsInRange_decodeBytes _ _ e hdecode) (h.symm.trans hstep)
    exact .faulted hf.cause
  · exact stepEnd_of_exec hrun (decode_wordAtPc hdecode) (h.symm.trans hstep)

/-! ### Faults (spec/60_exceptions.md R211, R212) -/

theorem FaultCause.code_range {c : FaultCause} (h : c ≠ .noFault) : 1 ≤ c.code ∧ c.code ≤ 6 := by
  cases c with
  | noFault => exact absurd rfl h
  | illegalOpcode | illegalRegister | divideByZero | memRange | misalignedFetch | unimplemented => decide

theorem faultTaken_raiseFault (s : State) (f : Raised) : FaultTaken s (raiseFault s f) f.cause f.info :=
  ⟨rfl, rfl, rfl, rfl, fun _ => rfl, fun _ => rfl, rfl, rfl, rfl⟩

/-- A step that ends FAULTED took a fault: a halt sets another STATUS and a commit keeps RUNNING. -/
theorem raiseFault_of_step {s t : State} (hstep : step s = .next t) (hfaulted : t.status = .faulted) :
    ∃ f : Raised, f.cause ≠ .noFault ∧ t = raiseFault s f := by
  cases stepEnd_of_step hstep with
  | halted hstatus => exact absurd hfaulted hstatus
  | faulted hcause => exact ⟨_, hcause, rfl⟩
  | completed hrun =>
    rw [commit_status, hrun] at hfaulted
    cases hfaulted

/-- Settles O16: the fault taken is `raiseFault`'s, and the codes are their tables'. -/
theorem faultsArePrecise : Obligations.FaultsArePrecise := by
  refine ⟨fun s t hstep hfaulted => ?_, rfl, rfl⟩
  obtain ⟨f, hcause, rfl⟩ := raiseFault_of_step hstep hfaulted
  exact ⟨f.cause, f.info, hcause, faultTaken_raiseFault s f, rfl, FaultCause.code_range hcause⟩

/-! ### The destination of an instruction (spec/10_state.md R24) -/

/-- Of the registers, the next state differs from `s` at most in the one `dest` names. -/
def KeepsOtherRegisters (s : State) (dest : Option Reg) (o : Host.Outcome State Fault Refusal) : Prop :=
  ∀ (t : State) (r : Reg), o = .next t → dest ≠ some r → t.reg r = s.reg r

theorem reg_commit_of_ne {s : State} {e : Effect} {r : Reg} (h : e.regw.map Prod.fst ≠ some r) :
    (commit s e).reg r = s.reg r := by
  obtain ⟨_ | ⟨rd, v⟩, memw, jump⟩ := e
  · exact reg_commit_none s r memw jump
  · have hr : r ≠ rd := fun hrd => h (congrArg some hrd.symm)
    rw [reg_commit_some, if_neg hr]
    split
    · next hzero => rw [hzero, reg_zero]
    · rfl

/-- An instruction that cannot fault. -/
theorem keepsOtherRegisters_complete (s : State) (e : Effect) :
    KeepsOtherRegisters s (e.regw.map Prod.fst) (complete s (.ok e)) := by
  rintro _ r ⟨⟩ hr
  exact reg_commit_of_ne hr

/-- An instruction that faults where `c` holds: DIV, REM, a load or a store. -/
theorem keepsOtherRegisters_checked (s : State) (c : Prop) [Decidable c] (f : Raised) (e : Effect) :
    KeepsOtherRegisters s (e.regw.map Prod.fst) (complete s (if c then .error f else .ok e)) := by
  split
  · rintro _ r ⟨⟩ _
    exact reg_raiseFault s f r
  · exact keepsOtherRegisters_complete s e

theorem keepsOtherRegisters_exec (i : Instr) (s : State) : KeepsOtherRegisters s (writes i) (exec i s) := by
  cases i with
  | add | mul | mulh | slt | slts | seqz | and | or | xor | not | sll | srl | sra
  | addi | slti | sltsi | lui | lli | andi | ori | xori | slli | srli | srai
  | beq | bneq | blt | ble | blts | bltes | jalr | jal | j => exact keepsOtherRegisters_complete s _
  | div | rem | lb | lh | lw | sb | sh | sw => exact keepsOtherRegisters_checked s _ _ _

/-- Settles O20: only a commit changes a register, and it changes its instruction's destination. -/
theorem onlyDestinationRegisterChanges : Obligations.OnlyDestinationRegisterChanges := by
  intro s t r hstep hchanged
  refine ⟨fun hzero => hchanged (by rw [hzero, reg_zero, reg_zero]), ?_⟩
  cases stepEnd_of_step hstep with
  | halted => exact absurd (reg_haltWith s _ r) hchanged
  | faulted => exact absurd (reg_raiseFault s _ r) hchanged
  | completed _ hdecode hexec =>
    exact ⟨_, hdecode, by_contra fun hdest => hchanged (keepsOtherRegisters_exec _ s _ r hexec hdest)⟩

/-! ### The configuration (spec/10_state.md R32) -/

theorem cfg_of_step {s t : State} (hstep : step s = .next t) : t.cfg = s.cfg := by
  cases stepEnd_of_step hstep with
  | halted => exact haltWith_cfg s _
  | faulted => exact raiseFault_cfg s _
  | completed => exact commit_cfg s _

/-- Settles O22: every step keeps the configuration, so every run does. -/
theorem configurationNeverChanges : Obligations.ConfigurationNeverChanges :=
  fun k s t hrun =>
    run_keeps (fun u => u.cfg = s.cfg) (fun _ _ hu hstep => (cfg_of_step hstep).trans hu) k s t rfl hrun

end Sys2Proof.Machine
end

section
/-!
SUPPORT. The instruction memory and the data memory: the word a step fetches, the loads and stores of every
width, and the cells a step leaves alone (spec/20_memory.md).
-/

namespace Sys2Proof

/-- A word's opcode is the first byte of the stream's four (spec/20_memory.md R42, spec/30_encoding.md R60). -/
theorem opcodeByte_wordOfBytes (b0 b1 b2 b3 : Byte) : opcodeByte (wordOfBytes b0 b1 b2 b3) = b0 := by
  apply BitVec.eq_of_toNat_eq
  have h0 := b0.isLt
  have h1 := b1.isLt
  have h2 := b2.isLt
  have h3 := b3.isLt
  simp only [opcodeByte, BitVec.extractLsb'_toNat, wordOfBytes_toNat, Nat.shiftRight_eq_div_pow]
  omega

end Sys2Proof

namespace Sys2Proof.Machine

/-! ### The fetched word (spec/20_memory.md R42) -/

/-- Settles O12: the bytes of a whole word, `Fetch`'s formula, and its first byte. -/
theorem fetchIsBigEndian : Obligations.FetchIsBigEndian :=
  fun s _ hwhole => ⟨fetchBytes_eq s hwhole, wordOfBytes_toNat _ _ _ _, opcodeByte_wordOfBytes _ _ _ _⟩

/-! ### Loads and stores of every width (spec/20_memory.md R48) -/

theorem exec_loadOf (width : Width) (rd base : Reg) (imm : BitVec 8) (s : State) :
    exec (loadOf width rd base imm) s = loadCell s rd (addressOf width s base imm) width := by
  cases width with
  | byte | half | word => rfl

theorem exec_storeOf (width : Width) (rs2 base : Reg) (imm : BitVec 8) (s : State) :
    exec (storeOf width rs2 base imm) s = storeCell s (s.reg rs2) (addressOf width s base imm) width := by
  cases width with
  | byte | half | word => rfl

section Ranges
variable {s : State} {width : Width} {r base : Reg} {imm : BitVec 8}

theorem exec_loadOf_outOfRange (h : s.cfg.memSize ≤ addressOf width s base imm) :
    exec (loadOf width r base imm) s = .next (raiseFault s ⟨.memRange, addressOf width s base imm⟩) := by
  rw [exec_loadOf, loadCell_eq, if_pos h]

theorem exec_storeOf_outOfRange (h : s.cfg.memSize ≤ addressOf width s base imm) :
    exec (storeOf width r base imm) s = .next (raiseFault s ⟨.memRange, addressOf width s base imm⟩) := by
  rw [exec_storeOf, storeCell_eq, if_pos h]

theorem exec_loadOf_inRange (h : addressOf width s base imm < s.cfg.memSize) :
    exec (loadOf width r base imm) s =
      .next (commit s ⟨some (r, memRead s (addressOf width s base imm) width), none, none⟩) := by
  rw [exec_loadOf, loadCell_eq, if_neg (Nat.not_le.mpr h)]

theorem exec_storeOf_inRange (h : addressOf width s base imm < s.cfg.memSize) :
    exec (storeOf width r base imm) s =
      .next (commit s ⟨none, some (addressOf width s base imm, width, s.reg r), none⟩) := by
  rw [exec_storeOf, storeCell_eq, if_neg (Nat.not_le.mpr h)]

end Ranges

/-- Settles O46: out of range both accesses are `raiseFault` at the effective address. -/
theorem outOfRangeAccessFaults : Obligations.OutOfRangeAccessFaults :=
  fun s _ _ _ _ hout =>
    ⟨⟨_, exec_loadOf_outOfRange hout, faultTaken_raiseFault s _⟩,
      ⟨_, exec_storeOf_outOfRange hout, faultTaken_raiseFault s _⟩⟩

/-! ### A load after a store (spec/20_memory.md R45, R51) -/

theorem memRead_toNat (s : State) (a : Nat) (width : Width) :
    (memRead s a width).toNat = (s.cell a).toNat % 2 ^ width.bits :=
  Laws.mask_toNat width (s.cell a)

/-- What a cell holds after a store: the value masked to the store's width, or its old contents. -/
theorem cell_toNat_after_store (s : State) (a b : Nat) (width : Width) (v : Word)
    (hwf : Memory.wf s.dmem = true) :
    ((commit s ⟨none, some (a, width, v), none⟩).cell b).toNat =
      if b = a then v.toNat % 2 ^ width.bits else (s.cell b).toNat := by
  rw [cell_commit_some, cell_memWrite s a b width v hwf]
  split
  · exact Laws.mask_toNat width v
  · rfl

/-- Settles O48: the load masks to its width the cell that the store left. -/
theorem loadSeesLastStore : Obligations.LoadSeesLastStore := by
  intro s t stored loaded rs2 rs1 rd base imm off hwf hstored hstore hloaded hrd
  cases (exec_storeOf_inRange hstored).symm.trans hstore
  refine ⟨_, exec_loadOf_inRange (by rwa [commit_cfg]), ?_⟩
  rw [reg_commit_some, if_neg hrd, if_pos rfl, memRead_toNat, cell_toNat_after_store _ _ _ _ _ hwf]
  split <;> rfl

/-! ### The cells an instruction leaves alone (spec/20_memory.md R40, R46) -/

/-- The next state has the cells of `s`. -/
def KeepsCells (s : State) (o : Host.Outcome State Fault Refusal) : Prop :=
  ∀ (t : State) (a : Nat), o = .next t → t.cell a = s.cell a

/-- An instruction that stores nothing and cannot fault. -/
theorem keepsCells_complete (s : State) (regw : Option (Reg × Word)) (jump : Option Int) :
    KeepsCells s (complete s (.ok { regw := regw, jump := jump })) := by
  rintro _ a ⟨⟩
  exact cell_commit_none s a regw jump

/-- An instruction that stores nothing and faults where `c` holds: DIV, REM or a load. -/
theorem keepsCells_checked (s : State) (c : Prop) [Decidable c] (f : Raised) (regw : Option (Reg × Word)) :
    KeepsCells s (complete s (if c then .error f else .ok { regw := regw })) := by
  split
  · rintro _ a ⟨⟩
    exact cell_raiseFault s f a
  · exact keepsCells_complete s regw none

/-- A store changes no cell but the one at its address, and that one only in range. -/
theorem address_of_storeCell_changes {s t : State} {v : Word} {ea a : Nat} {width : Width}
    (hstore : storeCell s v ea width = .next t) (hchanged : t.cell a ≠ s.cell a) :
    a = ea ∧ a < s.cfg.memSize := by
  rw [storeCell_eq] at hstore
  split at hstore
  · cases hstore
    exact absurd (cell_raiseFault s _ a) hchanged
  · next hin =>
    cases hstore
    have haddress : a = ea := by
      by_contra hother
      exact hchanged ((cell_commit_some ..).trans (cell_memWrite_other s ea a width v hother))
    exact ⟨haddress, haddress ▸ Nat.lt_of_not_le hin⟩

/-- An instruction that changes a cell is a store to it. -/
theorem storeOf_of_exec_changes {s t : State} {i : Instr} {a : Nat} (hexec : exec i s = .next t)
    (hchanged : t.cell a ≠ s.cell a) :
    ∃ (width : Width) (rs2 rs1 : Reg) (imm : BitVec 8),
      i = storeOf width rs2 rs1 imm ∧ a = addressOf width s rs1 imm ∧ a < s.cfg.memSize := by
  cases i with
  | add | mul | mulh | slt | slts | seqz | and | or | xor | not | sll | srl | sra
  | addi | slti | sltsi | lui | lli | andi | ori | xori | slli | srli | srai
  | beq | bneq | blt | ble | blts | bltes | jalr | jal | j =>
    exact absurd (keepsCells_complete s _ _ t a hexec) hchanged
  | div | rem | lb | lh | lw => exact absurd (keepsCells_checked s _ _ _ t a hexec) hchanged
  | sb rs2 rs1 imm => exact ⟨.byte, rs2, rs1, imm, rfl, address_of_storeCell_changes hexec hchanged⟩
  | sh rs2 rs1 imm => exact ⟨.half, rs2, rs1, imm, rfl, address_of_storeCell_changes hexec hchanged⟩
  | sw rs2 rs1 imm => exact ⟨.word, rs2, rs1, imm, rfl, address_of_storeCell_changes hexec hchanged⟩

/-- Settles O21: only a commit changes a cell, and it is a store's to that cell. -/
theorem onlyStoresChangeCells : Obligations.OnlyStoresChangeCells := by
  intro s t a hstep hchanged
  cases stepEnd_of_step hstep with
  | halted => exact absurd (cell_haltWith s _ a) hchanged
  | faulted => exact absurd (cell_raiseFault s _ a) hchanged
  | completed _ hdecode hexec =>
    obtain ⟨width, rs2, rs1, imm, rfl, hcell⟩ := storeOf_of_exec_changes hexec hchanged
    exact ⟨width, rs2, rs1, imm, hdecode, hcell⟩

end Sys2Proof.Machine
end

section
/-!
SUPPORT. Decoding and encoding undo each other, which fields of a word are rejected, and what a step does with
the word it fetches (spec/30_encoding.md R60 to R76).
-/

namespace Sys2Proof

/-! ### Decoding an encoded instruction -/

/-- The opcode byte leads back to the mnemonic, and the bits below it hold the operands. -/
theorem decode_encode {m : OpcodeMap} (hm : m.injective = true) (i : Instr) :
    decode m (encode m i) = .ok i := by
  obtain ⟨hop, _, hoperands⟩ := Laws.operandFields i
  unfold decode encode encodeRaw
  rw [Laws.opcodeByte_append, hop, OpcodeMap.slot_byteOf hm]
  exact hoperands _

/-- Settles O4: the word decodes, and its bytes decode as the word does. -/
theorem decodeInvertsEncode : Obligations.DecodeInvertsEncode := by
  intro m i rest hm
  refine ⟨decode_encode hm i, ?_⟩
  rw [encodeBytes, decodeBytes_bytesOfWord, decode_encode hm]
  rfl

/-! ### The fields of a word as numbers (spec/30_encoding.md R61) -/

section FieldValues
variable (w : Word)

theorem field23to16_toNat : (field23to16 w).toNat = w.toNat / 2 ^ 16 % 2 ^ 8 := by
  simp [field23to16, Nat.shiftRight_eq_div_pow]

theorem field15to8_toNat : (field15to8 w).toNat = w.toNat / 2 ^ 8 % 2 ^ 8 := by
  simp [field15to8, Nat.shiftRight_eq_div_pow]

theorem field7to0_toNat : (field7to0 w).toNat = w.toNat % 2 ^ 8 := by
  simp [field7to0]

theorem field15to0_toNat : (field15to0 w).toNat = w.toNat % 2 ^ 16 := by
  simp [field15to0]

end FieldValues

/-- The bits of a word below its opcode byte. -/
def lowBits (w : Word) : BitVec 24 := w.extractLsb' 0 24

theorem opcodeByte_append_lowBits (w : Word) : (opcodeByte w ++ lowBits w : BitVec 32) = w :=
  (BitVec.extractLsb'_append_extractLsb'_eq_extractLsb' rfl).trans (by simp)

/-- The mnemonic with the field values that a word of its shape holds (spec/30_encoding.md R61, R68). -/
def rawOfWord (op : Mnemonic) (w : Word) : RawInstr :=
  match op.shape with
  | .dss | .dsi => ⟨op, (field23to16 w).toNat, (field15to8 w).toNat, (field7to0 w).toNat⟩
  | .ds | .di => ⟨op, (field23to16 w).toNat, (field15to0 w).toNat, 0⟩
  | .i => ⟨op, (field23to0 w).toNat, 0, 0⟩

@[simp] theorem rawOfWord_op (op : Mnemonic) (w : Word) : (rawOfWord op w).op = op := by
  unfold rawOfWord
  split <;> rfl

theorem lowBits_eq_three (w : Word) : field23to16 w ++ field15to8 w ++ field7to0 w = lowBits w := by
  have hupper : (field23to16 w ++ field15to8 w : BitVec 16) = w.extractLsb' 8 16 :=
    BitVec.extractLsb'_append_extractLsb'_eq_extractLsb' rfl
  rw [hupper]
  exact BitVec.extractLsb'_append_extractLsb'_eq_extractLsb' rfl

theorem lowBits_eq_two (w : Word) : field23to16 w ++ field15to0 w = lowBits w :=
  BitVec.extractLsb'_append_extractLsb'_eq_extractLsb' rfl

/-- The field values of a word, packed again, are its bits: the fields overlap nowhere and leave no gap. -/
theorem fieldBits_rawOfWord (op : Mnemonic) (w : Word) : (rawOfWord op w).fieldBits = lowBits w := by
  unfold RawInstr.fieldBits
  rw [rawOfWord_op]
  unfold rawOfWord
  cases op.shape with
  | dss | dsi => simpa using lowBits_eq_three w
  | ds | di => simpa using lowBits_eq_two w
  | i =>
    change BitVec.ofNat 24 (lowBits w).toNat = lowBits w
    simp

/-! ### Reading the operands of a word (spec/30_encoding.md R68, R69) -/

/-- What checking register fields answers, given the first illegal one with its number: it is rejected, and
where there is none the operands read satisfy `P`. -/
inductive OperandsRead {α : Type} (P : α → Prop) :
    Option (Nat × Nat) → Except DecodeError α → Prop where
  | rejected (k v : Nat) : OperandsRead P (some (k, v)) (.error (.illegalRegister k v))
  | accepted {x : α} (hx : P x) : OperandsRead P none (.ok x)

section Shapes
open Machine
variable {α : Type} {P : α → Prop}

theorem OperandsRead.error_of_some {r : Except DecodeError α} {k v : Nat} (h : OperandsRead P (some (k, v)) r) :
    r = .error (.illegalRegister k v) := by
  cases h
  rfl

theorem OperandsRead.ok_of_none {r : Except DecodeError α} (h : OperandsRead P none r) :
    ∃ x, r = .ok x ∧ P x := by
  cases h with
  | accepted hx => exact ⟨_, rfl, hx⟩

theorem OperandsRead.of_ok {first : Option (Nat × Nat)} {x : α} (h : OperandsRead P first (.ok x)) : P x := by
  cases h with
  | accepted hx => exact hx

theorem OperandsRead.none_of_ok {first : Option (Nat × Nat)} {x : α} (h : OperandsRead P first (.ok x)) :
    first = none := by
  cases h
  rfl

/-- A register field is checked before the ones after it. -/
theorem operandsRead_regField {k v : Nat} {first : Option (Nat × Nat)} {f : Reg → Except DecodeError α}
    (hf : ∀ r : Reg, r.val = v → OperandsRead P first (f r)) :
    OperandsRead P (if 32 ≤ v then some (k, v) else first) (regField k v >>= f) := by
  rcases Nat.lt_or_ge v 32 with hlegal | hillegal
  · rw [regField_ok hlegal, if_neg (Nat.not_le.mpr hlegal)]
    exact hf ⟨v, hlegal⟩ rfl
  · rw [regField_error hillegal, if_pos hillegal]
    exact .rejected k v

variable {w : Word}

theorem operandsRead_dssFields {make : Reg → Reg → Reg → α}
    (hmake : ∀ a b c : Reg, a.val = (field23to16 w).toNat → b.val = (field15to8 w).toNat →
      c.val = (field7to0 w).toNat → P (make a b c)) :
    OperandsRead P (firstIllegalRegister .dss w) (dssFields w make) := by
  simp only [firstIllegalRegister, ← field23to16_toNat, ← field15to8_toNat, ← field7to0_toNat]
  exact operandsRead_regField fun a ha => operandsRead_regField fun b hb => operandsRead_regField fun c hc =>
    .accepted (hmake a b c ha hb hc)

theorem operandsRead_dsiFields {make : Reg → Reg → BitVec 8 → α}
    (hmake : ∀ a b : Reg, a.val = (field23to16 w).toNat → b.val = (field15to8 w).toNat →
      P (make a b (field7to0 w))) :
    OperandsRead P (firstIllegalRegister .dsi w) (dsiFields w make) := by
  simp only [firstIllegalRegister, ← field23to16_toNat, ← field15to8_toNat]
  exact operandsRead_regField fun a ha => operandsRead_regField fun b hb => .accepted (hmake a b ha hb)

theorem operandsRead_dsFields {make : Reg → Reg → α}
    (hmake : ∀ a b : Reg, a.val = (field23to16 w).toNat → b.val = (field15to0 w).toNat → P (make a b)) :
    OperandsRead P (firstIllegalRegister .ds w) (dsFields w make) := by
  simp only [firstIllegalRegister, ← field23to16_toNat, ← field15to0_toNat]
  exact operandsRead_regField fun a ha => operandsRead_regField fun b hb => .accepted (hmake a b ha hb)

theorem operandsRead_diFields {make : Reg → BitVec 16 → α}
    (hmake : ∀ a : Reg, a.val = (field23to16 w).toNat → P (make a (field15to0 w))) :
    OperandsRead P (firstIllegalRegister .di w) (diFields w make) := by
  simp only [firstIllegalRegister, ← field23to16_toNat]
  exact operandsRead_regField fun a ha => .accepted (hmake a ha)

theorem operandsRead_iFields {make : BitVec 24 → α} (hmake : P (make (field23to0 w))) :
    OperandsRead P (firstIllegalRegister .i w) (iFields w make) :=
  .accepted hmake

/-- The register checks of an extended map's instruction. -/
theorem operandsRead_checkFields (sh : Shape) :
    OperandsRead (fun _ => True) (firstIllegalRegister sh w) (checkFields w sh) := by
  cases sh with
  | dss => exact operandsRead_dssFields fun _ _ _ _ _ _ => trivial
  | dsi => exact operandsRead_dsiFields (make := fun _ _ _ => ()) fun _ _ _ _ => trivial
  | ds => exact operandsRead_dsFields fun _ _ _ _ => trivial
  | di => exact operandsRead_diFields (make := fun _ _ => ()) fun _ _ => trivial
  | i => exact operandsRead_iFields (make := fun _ => ()) trivial

end Shapes

/-- The operands read are the values of the word's fields, each in its place. -/
theorem operandsRead_decodeOperands (w : Word) (op : Mnemonic) :
    OperandsRead (fun i => i.raw = rawOfWord op w) (Machine.firstIllegalRegister op.shape w)
      (decodeOperands w op) := by
  cases op with
  | add | mul | mulh | div | rem | slt | slts | and | or | xor | not | sll | srl | sra =>
    refine operandsRead_dssFields fun a b c ha hb hc => ?_
    simp only [Instr.raw, ha, hb, hc]
    rfl
  | addi | slti | sltsi | andi | ori | xori | slli | srli | srai | lb | lh | lw | sb | sh | sw
  | beq | bneq | blt | ble | blts | bltes | jalr =>
    refine operandsRead_dsiFields fun a b ha hb => ?_
    simp only [Instr.raw, ha, hb]
    rfl
  | seqz =>
    refine operandsRead_dsFields fun a b ha hb => ?_
    simp only [Instr.raw, ha, hb]
    rfl
  | lui | lli | jal =>
    refine operandsRead_diFields fun a ha => ?_
    simp only [Instr.raw, ha]
    rfl
  | j => exact operandsRead_iFields rfl

/-! ### Encoding a decoded instruction -/

theorem decode_of_slot_core {m : OpcodeMap} {w : Word} {op : Mnemonic}
    (h : m.slot (opcodeByte w) = .core op) : decode m w = decodeOperands w op := by
  simp only [decode, h]

/-- Only a mnemonic's byte decodes. -/
theorem slot_core_of_decode {m : OpcodeMap} {w : Word} {i : Instr} (h : decode m w = .ok i) :
    ∃ op, m.slot (opcodeByte w) = .core op := by
  unfold decode at h
  split at h
  · cases h
  · next op hslot => exact ⟨op, hslot⟩
  · cases hcheck : checkFields w _ with
    | ok | error =>
      rw [hcheck] at h
      cases h

theorem raw_of_decodeOperands {w : Word} {op : Mnemonic} {i : Instr} (h : decodeOperands w op = .ok i) :
    i.raw = rawOfWord op w := by
  have hread := operandsRead_decodeOperands w op
  rw [h] at hread
  exact hread.of_ok

/-- Settles O5: the mnemonic gives the opcode byte back, and the field values the bits below it. -/
theorem encodeInvertsDecode : Obligations.EncodeInvertsDecode := by
  intro m w i hdecode
  obtain ⟨op, hslot⟩ := slot_core_of_decode hdecode
  rw [decode_of_slot_core hslot] at hdecode
  calc encode m i = encodeRaw m (rawOfWord op w) := by rw [encode, raw_of_decodeOperands hdecode]
    _ = m.byteOf op ++ lowBits w := by rw [encodeRaw, fieldBits_rawOfWord, rawOfWord_op]
    _ = opcodeByte w ++ lowBits w := by rw [OpcodeMap.byteOf_of_slot hslot]
    _ = w := opcodeByte_append_lowBits w

/-! ### Which words decode (spec/30_encoding.md R69) -/

theorem decodeOperands_of_illegalRegister {w : Word} {op : Mnemonic} {k v : Nat}
    (h : Machine.firstIllegalRegister op.shape w = some (k, v)) :
    decodeOperands w op = .error (.illegalRegister k v) := by
  have hread := operandsRead_decodeOperands w op
  rw [h] at hread
  exact hread.error_of_some

theorem decodeOperands_of_legalRegisters {w : Word} {op : Mnemonic}
    (h : Machine.firstIllegalRegister op.shape w = none) :
    ∃ i, decodeOperands w op = .ok i ∧ i.mnemonic = op := by
  have hread := operandsRead_decodeOperands w op
  rw [h] at hread
  obtain ⟨i, hi, hraw⟩ := hread.ok_of_none
  obtain ⟨hop, _⟩ := Laws.operandFields i
  exact ⟨i, hi, by rw [← hop, hraw, rawOfWord_op]⟩

theorem decode_of_classify_none {m : OpcodeMap} {w : Word} (h : m.classify (opcodeByte w) = none) :
    decode m w = .error (.illegalOpcode (opcodeByte w)) := by
  unfold OpcodeMap.classify at h
  unfold decode
  cases hslot : m.slot (opcodeByte w) with
  | unassigned => rfl
  | core op | extension sh =>
    rw [hslot] at h
    cases h

/-! ### The default opcode map (spec/30_encoding.md R67, R70) -/

theorem OpcodeMap.injective_default : OpcodeMap.default.injective = true := by
  decide

/-- A mnemonic's default byte is classified by its shape. -/
theorem classify_defaultByte (op : Mnemonic) : OpcodeMap.default.classify op.defaultByte = some op.shape := by
  rw [← byteOf_default, OpcodeMap.classify, OpcodeMap.slot_byteOf OpcodeMap.injective_default]

/-- The default map has no extension, so a byte of no mnemonic is unknown. -/
theorem classify_default_of_not_mem {b : Byte} (h : b ∉ Mnemonic.all.map Mnemonic.defaultByte) :
    OpcodeMap.default.classify b = none := by
  have hnone : (Mnemonic.all.find? fun op => OpcodeMap.default.byteOf op == b) = none := by
    refine List.find?_eq_none.mpr fun op hop hb => h (List.mem_map.mpr ⟨op, hop, ?_⟩)
    rw [← byteOf_default]
    exact beq_iff_eq.mp hb
  rw [OpcodeMap.classify, OpcodeMap.slot, hnone]
  rfl

theorem classify_default_isNone (b : Byte) :
    (OpcodeMap.default.classify b).isNone = decide (b ∉ Mnemonic.all.map Mnemonic.defaultByte) := by
  by_cases h : b ∈ Mnemonic.all.map Mnemonic.defaultByte
  · obtain ⟨op, _, rfl⟩ := List.mem_map.mp h
    simp [classify_defaultByte, h]
  · simp [classify_default_of_not_mem h, h]

/-- The byte numbered `k` is a mnemonic's default byte. -/
def assignedByDefault (k : Nat) : Bool :=
  decide (BitVec.ofNat 8 k ∈ Mnemonic.all.map Mnemonic.defaultByte)

/-- The 41 default bytes are different, so of the 256 bytes 41 are assigned. -/
theorem countP_assignedByDefault : (List.range 256).countP assignedByDefault = 41 := by
  have hperm : ((List.range 256).filter assignedByDefault).Perm
      ((Mnemonic.all.map Mnemonic.defaultByte).map BitVec.toNat) := by
    refine (List.perm_ext_iff_of_nodup (List.nodup_range.filter _) (by decide)).mpr fun k => ?_
    rw [List.mem_filter, List.mem_range, assignedByDefault, decide_eq_true_eq, List.mem_map (f := BitVec.toNat)]
    constructor
    · rintro ⟨hk, hmem⟩
      exact ⟨_, hmem, (BitVec.toNat_ofNat k 8).trans (Nat.mod_eq_of_lt hk)⟩
    · rintro ⟨b, hmem, rfl⟩
      exact ⟨b.isLt, by rwa [BitVec.ofNat_toNat, BitVec.setWidth_eq]⟩
  rw [List.countP_eq_length_filter, hperm.length_eq]
  rfl

/-- Settles O6: a byte of no mnemonic is unknown, and the 41 others are their mnemonics' bytes. -/
theorem defaultClassifierFollowsBitRule : Obligations.DefaultClassifierFollowsBitRule := by
  refine ⟨fun b => ?_, ?_, classify_default_of_not_mem (by decide), classify_default_of_not_mem (by decide)⟩
  · split
    · next h => exact classify_default_of_not_mem h
    · next h =>
      obtain ⟨op, _, rfl⟩ := List.mem_map.mp (not_not.mp h)
      rw [classify_defaultByte]
      cases op <;> rfl
  · have hall := List.length_eq_countP_add_countP assignedByDefault (l := List.range 256)
    rw [countP_assignedByDefault, List.length_range] at hall
    simp only [classify_default_isNone]
    simp only [assignedByDefault, decide_eq_true_eq] at hall
    omega

theorem decode_default_of_encode {i : Instr} {w : Word} (h : encode OpcodeMap.default i = w) :
    decode OpcodeMap.default w = .ok i :=
  h ▸ decode_encode OpcodeMap.injective_default i

/-- Settles O10: each word is the encoding of its instruction. -/
theorem sampleWordsDecode : Obligations.SampleWordsDecode :=
  ⟨decode_default_of_encode rfl, decode_default_of_encode rfl, decode_default_of_encode rfl,
    decode_default_of_encode rfl, decode_default_of_encode rfl, decode_default_of_encode rfl,
    decode_default_of_encode rfl, decode_default_of_encode rfl⟩

end Sys2Proof

namespace Sys2Proof.Machine

/-! ### A step that fetches a word -/

/-- A step that fetches executes the decoded instruction or raises the rejection's fault
(spec/40_execution_kernel.md R105, R106). -/
theorem step_of_fetches {s : State} (h : Fetches s) :
    step s = match decode s.cfg.opcodeMap (wordAtPc s) with
      | .ok i => exec i s
      | .error e => rejectWord s e := by
  rw [step, fetchDecode_word s h.running h.inside ((capReached_false_iff s).mpr h.belowCap) h.aligned, wordAtPc]
  cases decode s.cfg.opcodeMap _ <;> rfl

theorem step_of_decode_error {s : State} {e : DecodeError} (h : Fetches s)
    (hdecode : decode s.cfg.opcodeMap (wordAtPc s) = .error e) : step s = rejectWord s e := by
  rw [step_of_fetches h, hdecode]

/-- Settles O7: the register checks reject the first illegal field, or the operands are read. -/
theorem illegalRegisterFieldsFault : Obligations.IllegalRegisterFieldsFault := by
  refine ⟨fun s op k v hfetches hslot hfirst => ?_, fun m w op hslot hnone => ?_⟩
  · have hdecode := (decode_of_slot_core hslot).trans (decodeOperands_of_illegalRegister hfirst)
    exact ⟨_, step_of_decode_error hfetches hdecode, faultTaken_raiseFault s _⟩
  · rw [decode_of_slot_core hslot]
    exact decodeOperands_of_legalRegisters hnone

/-- Settles O8: the word is rejected by its opcode byte. -/
theorem unassignedOpcodeFaults : Obligations.UnassignedOpcodeFaults := by
  intro s hfetches hclass
  have hdecode := decode_of_classify_none hclass
  exact ⟨_, step_of_decode_error hfetches hdecode, faultTaken_raiseFault s _⟩

end Sys2Proof.Machine
end

section
/-!
SUPPORT. The values the assembler gives its operand tokens and its labels (spec/30_encoding.md R88, R90).
-/

namespace Sys2Proof.Toolchain

/-! ### Hexadecimal digits (spec/30_encoding.md R90) -/

/-- One more digit at the end. -/
theorem hexValue_append {digits : List Char} {c : Char} {h d : Nat} (hdigits : hexValue digits = some h)
    (hc : hexDigit c = some d) : hexValue (digits ++ [c]) = some (h * 16 + d) := by
  unfold hexValue at hdigits ⊢
  split at hdigits
  · cases hdigits
  · rw [if_neg (by simp), List.foldl_append, hdigits]
    simp [hc]

theorem hexValue_singleton {c : Char} {d : Nat} (hc : hexDigit c = some d) : hexValue [c] = some d := by
  simp [hexValue, hc]

/-- Base-16 digits are read back, however the digits are written. -/
theorem hexValue_map_toDigits (write : Char → Char)
    (hwrite : ∀ d : Fin 16, hexDigit (write (Nat.digitChar d)) = some d.val) (v : Nat) :
    hexValue ((Nat.toDigits 16 v).map write) = some v := by
  induction v using Nat.strongRecOn with
  | ind v ih =>
    rcases Nat.lt_or_ge v 16 with hv | hv
    · rw [Nat.toDigits_of_lt_base hv]
      exact hexValue_singleton (hwrite ⟨v, hv⟩)
    · have hlast := hwrite ⟨v % 16, Nat.mod_lt v (by decide)⟩
      rw [Nat.toDigits_of_base_le (by decide) hv, List.map_append]
      refine (hexValue_append (ih (v / 16) (by omega)) hlast).trans (congrArg some ?_)
      exact Nat.div_add_mod' v 16

theorem hexValue_toDigits (v : Nat) : hexValue (Nat.toDigits 16 v) = some v := by
  simpa using hexValue_map_toDigits id (by decide) v

theorem hexValue_toDigits_toUpper (v : Nat) : hexValue ((Nat.toDigits 16 v).map Char.toUpper) = some v :=
  hexValue_map_toDigits Char.toUpper (by decide) v

/-! ### Operand tokens in an immediate field -/

/-- Folding a negative number into a field is reducing it modulo the field's size (spec/30_encoding.md R90). -/
theorem negate_mod (v n : Nat) (hn : 0 < n) : (((n - v % n) % n : Nat) : Int) = (-(v : Int)) % n := by
  have hfold : ((n - v % n : Nat) : Int) = -(v : Int) + n * (v / n + 1) := by
    rw [Int.natCast_sub (Nat.mod_lt v hn).le, Int.natCast_mod, Int.emod_def]
    ring
  rw [Int.natCast_mod, hfold, Int.add_mul_emod_self_left]

/-- Settles O58, one kind of token after another. -/
theorem immediateTokensAreMaskedToTheirField : Obligations.ImmediateTokensAreMaskedToTheirField := by
  intro table width v line word name
  refine ⟨rfl, ⟨_, rfl, ?signed⟩, fun digits h hdigits => ?hex, hexValue_toDigits v,
    hexValue_toDigits_toUpper v, fun digits c h d => hexValue_append, ?label⟩
  case signed => simpa using negate_mod v (2 ^ width) (Nat.two_pow_pos width)
  case hex => simp only [operandValue, hdigits]
  case label => cases hoffset : table.offset name <;> simp only [operandValue, hoffset, errorAt]

/-! ### The label pass (spec/30_encoding.md R88) -/

@[simp] theorem offset_cons_self (table : LabelTable) (name : List Char) (v : Nat) :
    LabelTable.offset ((name, v) :: table) name = some v := by
  simp [LabelTable.offset]

theorem offset_cons_of_ne (table : LabelTable) {name other : List Char} (v : Nat) (h : other ≠ name) :
    LabelTable.offset ((other, v) :: table) name = table.offset name := by
  simp [LabelTable.offset, h]

/-- What the label pass does with a token: an OPCODE advances the counter, a LABEL is new and is recorded, and
any other token changes nothing. -/
theorem labelPass_cons {counter : Nat} {table final : LabelTable} {t : Token} {rest : List Token}
    (h : labelPass counter table (t :: rest) = .ok final) :
    (t.isOpcode = true ∧ labelPass (counter + 4) table rest = .ok final) ∨
    (t.isOpcode = false ∧ ∃ name, t.kind = .label name ∧ table.offset name = none ∧
      labelPass counter ((name, counter) :: table) rest = .ok final) ∨
    (t.isOpcode = false ∧ (∀ name, t.kind ≠ .label name) ∧ labelPass counter table rest = .ok final) := by
  obtain ⟨kind, line, word⟩ := t
  cases kind with
  | opcode op => exact .inl ⟨rfl, h⟩
  | label name =>
    cases hoffset : table.offset name with
    | none =>
      simp only [labelPass, hoffset] at h
      exact .inr (.inl ⟨rfl, name, rfl, hoffset, h⟩)
    | some v => simp [labelPass, hoffset] at h
  | register | numeric | signed | hex | identifier | eof => exact .inr (.inr ⟨rfl, nofun, h⟩)

/-- A recorded label keeps its offset, since a second declaration is an error. -/
theorem offset_of_labelPass {counter : Nat} {table final : LabelTable} {tokens : List Token} {name : List Char}
    {v : Nat} (hname : table.offset name = some v) (h : labelPass counter table tokens = .ok final) :
    final.offset name = some v := by
  induction tokens generalizing counter table with
  | nil =>
    cases h
    exact hname
  | cons t rest ih =>
    rcases labelPass_cons h with ⟨_, h⟩ | ⟨_, other, _, hnew, h⟩ | ⟨_, _, h⟩
    · exact ih hname h
    · have hne : other ≠ name := by
        rintro rfl
        cases hname.symm.trans hnew
      exact ih ((offset_cons_of_ne table counter hne).trans hname) h
    · exact ih hname h

/-- A label is recorded at the counter where it stands, which each OPCODE before it moved by 4. -/
theorem offset_of_label {counter : Nat} {table final : LabelTable} {before after : List Token} {t : Token}
    {name : List Char} (ht : t.kind = .label name)
    (h : labelPass counter table (before ++ t :: after) = .ok final) :
    final.offset name = some (counter + 4 * before.countP Token.isOpcode) := by
  induction before generalizing counter table with
  | nil =>
    rcases labelPass_cons h with ⟨hop, _⟩ | ⟨_, other, hother, _, h⟩ | ⟨_, hnot, _⟩
    · simp [Token.isOpcode, ht] at hop
    · cases ht.symm.trans hother
      exact offset_of_labelPass (offset_cons_self table name counter) h
    · exact absurd ht (hnot name)
  | cons first before ih =>
    rcases labelPass_cons h with ⟨hop, h⟩ | ⟨hop, _, _, _, h⟩ | ⟨hop, _, h⟩
    · rw [ih h, List.countP_cons_of_pos hop]
      congr 1
      omega
    · rw [ih h, List.countP_cons_of_neg (by simp [hop])]
    · rw [ih h, List.countP_cons_of_neg (by simp [hop])]

/-- Settles O59: the pass starts at byte 0 with no label. -/
theorem labelsAreFourTimesTheOpcodesBefore : Obligations.LabelsAreFourTimesTheOpcodesBefore := by
  intro before after t name table ht h
  simpa using offset_of_label ht h

end Sys2Proof.Toolchain
end

section
/-!
SUPPORT. The text the disassembler writes is read back by the lexer as the instructions' tokens
(spec/30_encoding.md R86, R94, R96).
-/

namespace Sys2Proof.Toolchain

/-! ### Splitting into units (spec/30_encoding.md R86) -/

/-- The characters that end a word. -/
def separators : List Char := [':', ',', ';', '\n', ' ', '\t', '\r']

/-- A word as the splitter collects it: not empty, and without a separator. -/
structure IsWord (w : List Char) : Prop where
  nonempty : w ≠ []
  chars : ∀ c ∈ w, c ∉ separators

theorem not_mem_separators_of_isAlphanum {c : Char} (h : c.isAlphanum = true) : c ∉ separators := by
  intro hc
  simp only [separators, List.mem_cons, List.not_mem_nil, or_false] at hc
  rcases hc with rfl | rfl | rfl | rfl | rfl | rfl | rfl <;> exact absurd h (by decide)

theorem isWord_of_isAlphanum {w : List Char} (hne : w ≠ []) (h : ∀ c ∈ w, c.isAlphanum = true) : IsWord w :=
  ⟨hne, fun c hc => not_mem_separators_of_isAlphanum (h c hc)⟩

theorem splitUnits_wordChar {c : Char} (hc : c ∉ separators) (collected rest : List Char) :
    splitUnits collected (c :: rest) = splitUnits (c :: collected) rest := by
  simp only [separators, List.mem_cons, List.not_mem_nil, or_false, not_or] at hc
  obtain ⟨hcolon, hcomma, hsemicolon, hnewline, hspace, htab, hreturn⟩ := hc
  simp [splitUnits, Char.isWhitespace, *]

/-- A separator ends the word collected so far. -/
theorem splitUnits_separator {c : Char} (hc : c ∈ separators) (collected rest : List Char) :
    splitUnits collected (c :: rest) = flushWord collected (splitUnits [] (c :: rest)) := by
  simp only [separators, List.mem_cons, List.not_mem_nil, or_false] at hc
  rcases hc with rfl | rfl | rfl | rfl | rfl | rfl | rfl <;> rfl

theorem splitUnits_append {w : List Char} (hw : ∀ c ∈ w, c ∉ separators) (collected rest : List Char) :
    splitUnits collected (w ++ rest) = splitUnits (w.reverse ++ collected) rest := by
  induction w generalizing collected with
  | nil => rfl
  | cons c w ih =>
    obtain ⟨hc, hw⟩ := List.forall_mem_cons.mp hw
    rw [List.cons_append, splitUnits_wordChar hc, ih hw, List.reverse_cons, List.append_assoc]
    rfl

/-- A word and the separator after it. -/
theorem splitUnits_word {w : List Char} (hw : IsWord w) {c : Char} (hc : c ∈ separators) (rest : List Char) :
    splitUnits [] (w ++ c :: rest) = .word w :: splitUnits [] (c :: rest) := by
  rw [splitUnits_append hw.chars, splitUnits_separator hc, flushWord,
    if_neg (by simpa using hw.nonempty)]
  simp

/-- The units of an argument list and its line's end, before the units of the lines after it. -/
def argumentUnits (args : List (List Char)) (rest : List SourceUnit) : List SourceUnit :=
  (args.map SourceUnit.word).intersperse SourceUnit.comma ++ SourceUnit.newline :: rest

theorem argumentUnits_cons_cons (w w' : List Char) (args : List (List Char)) (rest : List SourceUnit) :
    argumentUnits (w :: w' :: args) rest = .word w :: .comma :: argumentUnits (w' :: args) rest := rfl

/-- Arguments with a comma and a space between them, up to the end of their line. -/
theorem splitUnits_arguments {args : List (List Char)} (hargs : ∀ w ∈ args, IsWord w) (rest : List Char) :
    splitUnits [] (List.intercalate [',', ' '] args ++ '\n' :: rest) =
      argumentUnits args (splitUnits [] rest) := by
  induction args with
  | nil => rfl
  | cons w args ih =>
    obtain ⟨hw, hargs⟩ := List.forall_mem_cons.mp hargs
    cases args with
    | nil =>
      rw [List.intercalate_singleton, splitUnits_word hw (by decide)]
      rfl
    | cons w' args =>
      rw [argumentUnits_cons_cons, ← ih hargs, List.intercalate_cons_cons, List.append_assoc,
        List.append_assoc, List.cons_append, splitUnits_word hw (by decide)]
      rfl

/-! ### Units to tokens (spec/30_encoding.md R86) -/

/-- The kinds of tokens, without the places where they stand. -/
def kinds (tokens : List Token) : List TokenKind :=
  tokens.map Token.kind

theorem kinds_append (tokens rest : List Token) : kinds (tokens ++ rest) = kinds tokens ++ kinds rest :=
  List.map_append

/-- A word that no colon follows. -/
theorem tokensOfUnits_word (line word : Nat) (w : List Char) {u : SourceUnit} (hu : u ≠ .colon)
    (rest : List SourceUnit) :
    tokensOfUnits line word false (.word w :: u :: rest) =
      ⟨classifyWord w, line, word⟩ :: tokensOfUnits line (word + 1) false (u :: rest) := by
  cases u with
  | colon => exact absurd rfl hu
  | word | comma | semicolon | newline => rfl

/-- No colon follows the word before an argument list. -/
theorem argumentUnits_head (args : List (List Char)) (rest : List SourceUnit) :
    ∃ u units, argumentUnits args rest = u :: units ∧ u ≠ .colon := by
  match args with
  | [] => exact ⟨_, _, rfl, nofun⟩
  | [w] => exact ⟨_, _, rfl, nofun⟩
  | w :: w' :: args => exact ⟨_, _, rfl, nofun⟩

theorem kinds_arguments (args : List (List Char)) (line word : Nat) (rest : List SourceUnit) :
    kinds (tokensOfUnits line word false (argumentUnits args rest)) =
      args.map classifyWord ++ kinds (tokensOfUnits (line + 1) 1 false rest) := by
  induction args generalizing word with
  | nil => rfl
  | cons w args ih =>
    cases args with
    | nil => rfl
    | cons w' args => exact congrArg (classifyWord w :: ·) (ih (word + 1))

/-- The kinds of one line: a name and its arguments. -/
theorem kinds_line (name : List Char) (args : List (List Char)) (line : Nat) (rest : List SourceUnit) :
    kinds (tokensOfUnits line 1 false (.word name :: argumentUnits args rest)) =
      classifyWord name :: args.map classifyWord ++ kinds (tokensOfUnits (line + 1) 1 false rest) := by
  obtain ⟨u, units, hunits, hu⟩ := argumentUnits_head args rest
  rw [hunits, tokensOfUnits_word line 1 name hu, ← hunits]
  exact congrArg (classifyWord name :: ·) (kinds_arguments args line 2 rest)

/-! ### The words of a rendered instruction (spec/30_encoding.md R94) -/

theorem isAlpha_of_mem_mnemonicName {op : Mnemonic} {c : Char} (hc : c ∈ mnemonicName op) :
    c.isAlpha = true := by
  have hall : (mnemonicName op).all Char.isAlpha = true := by cases op <;> rfl
  exact List.all_eq_true.mp hall c hc

theorem isWord_mnemonicName (op : Mnemonic) : IsWord (mnemonicName op) := by
  refine isWord_of_isAlphanum (by cases op <;> decide) fun c hc => ?_
  simp [Char.isAlphanum, isAlpha_of_mem_mnemonicName hc]

theorem classifyWord_mnemonicName (op : Mnemonic) : classifyWord (mnemonicName op) = .opcode op := by
  cases op <;> rfl

theorem classifyWord_registerName : ∀ r : Reg, classifyWord (registerName r) = .register r := by
  decide

theorem isDigit_of_mem_toDigits {v : Nat} {c : Char} (hc : c ∈ Nat.toDigits 10 v) : c.isDigit = true :=
  Nat.isDigit_of_mem_toDigits (by decide) (by decide) hc

theorem isAlpha_of_isDigit {c : Char} (h : c.isDigit = true) : c.isAlpha = false := by
  simp only [Char.isDigit, Char.isAlpha, Char.isUpper, Char.isLower, UInt32.le_iff_toNat_le, ge_iff_le,
    Bool.and_eq_true, Bool.or_eq_false_iff, Bool.and_eq_false_iff, decide_eq_true_eq, decide_eq_false_iff_not,
    Char.reduceVal, UInt32.reduceToNat] at h ⊢
  omega

theorem decimalValue_toDigits (v : Nat) : decimalValue (Nat.toDigits 10 v) = v := by
  have hfold : decimalValue (Nat.toDigits 10 v) = Nat.ofDigitChars 10 (Nat.toDigits 10 v) 0 := by
    simp only [decimalValue, Nat.ofDigitChars_eq_foldl, Nat.mul_comm]
  rw [hfold, Nat.ofDigitChars_toDigits (by decide) (by decide)]

/-- A number's digits are no mnemonic and no register name: those have letters. -/
theorem classifyWord_toDigits (v : Nat) : classifyWord (Nat.toDigits 10 v) = .numeric v := by
  obtain ⟨c, digits, hdigits⟩ := List.exists_cons_of_ne_nil (Nat.toDigits_ne_nil (n := v) (b := 10))
  have halpha : c.isAlpha = false :=
    isAlpha_of_isDigit (isDigit_of_mem_toDigits (hdigits ▸ List.mem_cons_self))
  have hmnemonic : (Mnemonic.all.find? fun op =>
      mnemonicName op == (Nat.toDigits 10 v).map Char.toUpper) = none := by
    refine List.find?_eq_none.mpr fun op _ hop => ?_
    have hmem : c.toUpper ∈ mnemonicName op := by simp [beq_iff_eq.mp hop, hdigits]
    have htrue := isAlpha_of_mem_mnemonicName hmem
    rw [Char.isAlpha_toUpper_eq_isAlpha, halpha] at htrue
    cases htrue
  have hregister : ((List.finRange 32).find? fun r =>
      registerName r == (Nat.toDigits 10 v).map Char.toLower) = none := by
    refine List.find?_eq_none.mpr fun r _ hr => ?_
    have hhead : 'r' = c.toLower := by
      simpa [hdigits, registerName] using congrArg List.head? (beq_iff_eq.mp hr)
    have htrue : c.toLower.isAlpha = true := hhead ▸ rfl
    rw [Char.isAlpha_toLower_eq_isAlpha, halpha] at htrue
    cases htrue
  have hall : allDigits (Nat.toDigits 10 v) = true := by
    simp only [allDigits, Bool.and_eq_true, decide_eq_true_eq]
    exact ⟨Nat.toDigits_ne_nil, List.all_eq_true.mpr fun _ => isDigit_of_mem_toDigits⟩
  unfold classifyWord
  rw [hmnemonic, hregister, if_pos hall, decimalValue_toDigits]

/-! ### Field values -/

/-- The values a field can hold: a register's index, or an immediate of the field's width
(spec/30_encoding.md R61, R69). -/
def FieldKind.Fits : FieldKind → Nat → Prop
  | .register, v => v < 32
  | .immediate width, v => v < 2 ^ width

theorem isWord_renderArgument (p : FieldKind × Nat) : IsWord (renderArgument p) := by
  have hdigit : ∀ c ∈ Nat.toDigits 10 p.2, c.isAlphanum = true := fun c hc => by
    simp [Char.isAlphanum, isDigit_of_mem_toDigits hc]
  obtain ⟨_ | width, v⟩ := p
  · exact isWord_of_isAlphanum nofun (List.forall_mem_cons.mpr ⟨rfl, hdigit⟩)
  · exact isWord_of_isAlphanum Nat.toDigits_ne_nil hdigit

theorem classifyWord_renderArgument {p : FieldKind × Nat} (hp : p.1.Fits p.2) :
    classifyWord (renderArgument p) = (argumentToken p).kind := by
  obtain ⟨_ | width, v⟩ := p
  · have hv : (Fin.ofNat 32 v).val = v := Nat.mod_eq_of_lt hp
    rw [renderArgument, ← hv]
    exact (classifyWord_registerName _).trans (by rw [hv]; rfl)
  · exact classifyWord_toDigits v

/-- The checks of a raw instruction, field by field. -/
theorem wellFormed_iff (r : RawInstr) :
    r.wellFormed = true ↔
      (r.f1 < 2 ^ r.op.shape.fieldWidths.1 ∧ r.f2 < 2 ^ r.op.shape.fieldWidths.2.1 ∧
        r.f3 < 2 ^ r.op.shape.fieldWidths.2.2) ∧
      (r.op.shape.registerFields.1 = true → r.f1 < 32) ∧
        (r.op.shape.registerFields.2.1 = true → r.f2 < 32) ∧
        (r.op.shape.registerFields.2.2 = true → r.f3 < 32) := by
  simp only [RawInstr.wellFormed, RawInstr.fieldsFit, RawInstr.registersLegal, Bool.and_eq_true,
    decide_eq_true_eq, Bool.or_eq_true, Bool.not_eq_true', ← Bool.not_eq_true, ← imp_iff_not_or, and_assoc]

/-- An instruction's field values fit their fields. -/
theorem fieldValues_fits (i : Instr) : ∀ p ∈ fieldValues i, p.1.Fits p.2 := by
  obtain ⟨hop, hwf, _⟩ := Laws.operandFields i
  obtain ⟨⟨h1, h2, h3⟩, hr1, hr2, hr3⟩ := (wellFormed_iff i.raw).mp hwf
  rw [hop] at h1 h2 h3 hr1 hr2 hr3
  rw [fieldValues, ← List.forall_iff_forall_mem]
  cases hshape : i.mnemonic.shape with
  | dss =>
    rw [hshape] at hr1 hr2 hr3
    exact ⟨hr1 rfl, hr2 rfl, hr3 rfl⟩
  | dsi =>
    rw [hshape] at hr1 hr2 h3
    exact ⟨hr1 rfl, hr2 rfl, h3⟩
  | ds =>
    rw [hshape] at hr1 hr2
    exact ⟨hr1 rfl, hr2 rfl⟩
  | di =>
    rw [hshape] at hr1 h2
    exact ⟨hr1 rfl, h2⟩
  | i =>
    rw [hshape] at h1
    exact h1

/-! ### Lexing the disassembler's text (spec/30_encoding.md R94, R96) -/

/-- The text of instructions, one on each line, as the disassembler writes it. -/
def renderStream (is : List Instr) : List Char :=
  is.flatMap fun i => renderInstr i ++ ['\n']

theorem disassemble_eq {m : OpcodeMap} {bytes : List Byte} {is : List Instr}
    (h : decodeStream m bytes = .ok is) : disassemble m bytes = .ok (renderStream is) := by
  rw [disassemble, h]
  rfl

theorem decodeStream_of_disassemble {m : OpcodeMap} {bytes : List Byte} {text : List Char}
    (h : disassemble m bytes = .ok text) : ∃ is, decodeStream m bytes = .ok is ∧ text = renderStream is := by
  cases hdecode : decodeStream m bytes with
  | error e =>
    rw [disassemble, hdecode] at h
    cases h
  | ok is =>
    rw [disassemble_eq hdecode] at h
    cases h
    exact ⟨is, rfl, rfl⟩

theorem map_classifyWord_arguments (i : Instr) :
    ((fieldValues i).map renderArgument).map classifyWord = kinds ((fieldValues i).map argumentToken) := by
  rw [kinds, List.map_map, List.map_map]
  exact List.map_congr_left fun p hp => classifyWord_renderArgument (fieldValues_fits i p hp)

theorem splitUnits_renderInstr (i : Instr) (rest : List Char) :
    splitUnits [] (renderInstr i ++ '\n' :: rest) =
      .word (mnemonicName i.mnemonic) ::
        argumentUnits ((fieldValues i).map renderArgument) (splitUnits [] rest) := by
  have hargs : ∀ w ∈ (fieldValues i).map renderArgument, IsWord w :=
    List.forall_mem_map.mpr fun p _ => isWord_renderArgument p
  rw [← splitUnits_arguments hargs, renderInstr, List.append_assoc, List.cons_append,
    splitUnits_word (isWord_mnemonicName _) (by decide)]
  rfl

/-- One line of the text is lexed as the instruction's tokens. -/
theorem kinds_renderInstr (i : Instr) (line : Nat) (rest : List Char) :
    kinds (tokensOfUnits line 1 false (splitUnits [] (renderInstr i ++ '\n' :: rest))) =
      kinds (instrTokens i) ++ kinds (tokensOfUnits (line + 1) 1 false (splitUnits [] rest)) := by
  rw [splitUnits_renderInstr, kinds_line, classifyWord_mnemonicName, map_classifyWord_arguments]
  rfl

/-- The whole text is lexed as the instructions' tokens and EOF. -/
theorem kinds_renderStream (is : List Instr) (line : Nat) :
    kinds (tokensOfUnits line 1 false (splitUnits [] (renderStream is))) =
      kinds (is.flatMap instrTokens) ++ [TokenKind.eof] := by
  induction is generalizing line with
  | nil => rfl
  | cons i is ih =>
    have hline : renderStream (i :: is) = renderInstr i ++ '\n' :: renderStream is := by
      simp [renderStream]
    rw [hline, kinds_renderInstr, ih, List.flatMap_cons, kinds_append, List.append_assoc]

theorem kinds_lex_renderStream (is : List Instr) :
    kinds (lex (renderStream is)) = kinds (is.flatMap instrTokens) ++ [TokenKind.eof] :=
  kinds_renderStream is 1

end Sys2Proof.Toolchain
end

section
/-!
SUPPORT. The emission pass packs the words of the instructions whose tokens it reads, and nothing else, so
disassembling and assembling undo each other on streams (spec/30_encoding.md R89, R95, R96).
-/

namespace Sys2Proof.Toolchain

/-- A computation that succeeds has a first part that succeeds and a second that does from there. -/
theorem exists_of_bind_ok {ε α β : Type} {x : Except ε α} {f : α → Except ε β} {b : β}
    (h : x >>= f = .ok b) : ∃ a, x = .ok a ∧ f a = .ok b := by
  cases x with
  | ok a => exact ⟨a, rfl, h⟩
  | error e => cases h

/-! ### The label pass over a text without labels -/

theorem labelPass_of_no_label {tokens : List Token} (h : ∀ k ∈ kinds tokens, ∀ name, k ≠ .label name)
    (counter : Nat) (table : LabelTable) : labelPass counter table tokens = .ok table := by
  induction tokens generalizing counter with
  | nil => rfl
  | cons t rest ih =>
    obtain ⟨ht, hrest⟩ := List.forall_mem_cons.mp h
    obtain ⟨kind, line, word⟩ := t
    cases kind with
    | label name => exact absurd rfl (ht name)
    | opcode op => exact ih hrest (counter + 4)
    | register | numeric | signed | hex | identifier | eof => exact ih hrest counter

theorem kinds_instrTokens_ne_label (i : Instr) :
    ∀ k ∈ kinds (instrTokens i), ∀ name, k ≠ .label name := by
  refine List.forall_mem_cons.mpr ⟨nofun, fun k hk => ?_⟩
  obtain ⟨_, ht, rfl⟩ := List.mem_map.mp hk
  obtain ⟨⟨field, v⟩, _, rfl⟩ := List.mem_map.mp ht
  cases field <;> nofun

theorem kinds_stream_ne_label (is : List Instr) :
    ∀ k ∈ kinds (is.flatMap instrTokens) ++ [TokenKind.eof], ∀ name, k ≠ .label name := by
  intro k hk
  rcases List.mem_append.mp hk with hk | hk
  · obtain ⟨t, ht, rfl⟩ := List.mem_map.mp hk
    obtain ⟨i, _, hi⟩ := List.mem_flatMap.mp ht
    exact kinds_instrTokens_ne_label i _ (List.mem_map_of_mem hi)
  · rw [List.mem_singleton.mp hk]
    nofun

/-! ### Emitting the tokens of instructions (spec/30_encoding.md R89) -/

section Emission
variable (m : OpcodeMap) (table : LabelTable)

/-- The disassembler's token for a value that fits its field gives that value back, wherever it stands. -/
theorem operandValue_argument {p : FieldKind × Nat} (hp : p.1.Fits p.2) {t : Token}
    (ht : t.kind = (argumentToken p).kind) : operandValue table p.1 t = .ok p.2 := by
  obtain ⟨field, v⟩ := p
  cases field with
  | register | immediate =>
    simp only [operandValue, ht, argumentToken]
    exact congrArg _ (Nat.mod_eq_of_lt hp)

theorem emitWords_opcode {t : Token} {op : Mnemonic} (ht : t.kind = .opcode op) (rest : List Token) :
    emitWords m table none (t :: rest) = emitWords m table (some ⟨op, fieldKinds op.shape, []⟩) rest := by
  simp only [emitWords, ht]

variable {table} in
theorem emitWords_lastOperand {op : Mnemonic} {field : FieldKind} {values : List Nat} {t : Token} {v : Nat}
    (hv : operandValue table field t = .ok v) (rest : List Token) :
    emitWords m table (some ⟨op, [field], values⟩) (t :: rest) =
      (emitWords m table none rest).map (encodeRaw m (rawOfValues op (values ++ [v])) :: ·) := by
  simp only [emitWords, hv]
  cases emitWords m table none rest <;> rfl

variable {table} in
theorem emitWords_operand {op : Mnemonic} {field next : FieldKind} {more : List FieldKind} {values : List Nat}
    {t : Token} {v : Nat} (hv : operandValue table field t = .ok v) (rest : List Token) :
    emitWords m table (some ⟨op, field :: next :: more, values⟩) (t :: rest) =
      emitWords m table (some ⟨op, next :: more, values ++ [v]⟩) rest := by
  simp only [emitWords, hv]
  rfl

/-- The operand tokens of the fields still missing complete the instruction's word. -/
theorem emitWords_arguments {args : List (FieldKind × Nat)} (hne : args ≠ [])
    (hfits : ∀ p ∈ args, p.1.Fits p.2) {tokens : List Token}
    (htokens : kinds tokens = kinds (args.map argumentToken)) (op : Mnemonic)
    (values : List Nat) (rest : List Token) :
    emitWords m table (some ⟨op, args.map Prod.fst, values⟩) (tokens ++ rest) =
      (emitWords m table none rest).map (encodeRaw m (rawOfValues op (values ++ args.map Prod.snd)) :: ·) := by
  induction args generalizing tokens values with
  | nil => exact absurd rfl hne
  | cons p args ih =>
    obtain ⟨t, tokens, rfl, ht, htokens⟩ := List.map_eq_cons_iff.mp htokens
    obtain ⟨hp, hfits⟩ := List.forall_mem_cons.mp hfits
    have hv := operandValue_argument table hp ht
    cases args with
    | nil =>
      obtain rfl := List.map_eq_nil_iff.mp htokens
      exact emitWords_lastOperand m hv rest
    | cons q args =>
      have hrest := ih (List.cons_ne_nil q args) hfits htokens (values ++ [p.2])
      rw [List.append_assoc] at hrest
      exact (emitWords_operand m hv _).trans hrest

theorem map_fst_fieldValues (i : Instr) : (fieldValues i).map Prod.fst = fieldKinds i.mnemonic.shape := by
  unfold fieldValues
  cases i.mnemonic.shape <;> rfl

/-- The field values, packed in order, are the raw instruction: an absent field is 0. -/
theorem rawOfValues_fieldValues (i : Instr) : rawOfValues i.mnemonic ((fieldValues i).map Prod.snd) = i.raw := by
  cases i <;> rfl

theorem fieldValues_ne_nil (i : Instr) : fieldValues i ≠ [] := by
  unfold fieldValues
  cases i.mnemonic.shape <;> nofun

/-- The tokens of instructions, wherever they stand, give the instructions' words. -/
theorem emitWords_stream {is : List Instr} {tokens : List Token}
    (h : kinds tokens = kinds (is.flatMap instrTokens) ++ [TokenKind.eof]) :
    emitWords m table none tokens = .ok (is.map (encode m)) := by
  induction is generalizing tokens with
  | nil =>
    obtain ⟨t, _, rfl, ht, _⟩ := List.map_eq_cons_iff.mp h
    simp only [emitWords, ht]
    rfl
  | cons i is ih =>
    rw [List.flatMap_cons, kinds_append, List.append_assoc] at h
    obtain ⟨t, tokens, rfl, ht, h⟩ := List.map_eq_cons_iff.mp h
    obtain ⟨arguments, rest, rfl, harguments, hrest⟩ := List.map_eq_append_iff.mp h
    have hword := emitWords_arguments m table (fieldValues_ne_nil i) (fieldValues_fits i) harguments
      i.mnemonic [] rest
    rw [map_fst_fieldValues, List.nil_append, rawOfValues_fieldValues, ih hrest] at hword
    rw [emitWords_opcode m table ht, hword]
    rfl

end Emission

/-! ### What the emission pass can emit -/

/-- Of the instruction being read, if there is one, the values so far fit the fields they were read for. -/
def FitsSoFar : Option Pending → Prop
  | none => True
  | some p => ∃ read, fieldKinds p.op.shape = read ++ p.missing ∧ List.Forall₂ FieldKind.Fits read p.values

theorem fits_of_operandValue {table : LabelTable} {field : FieldKind} {t : Token} {v : Nat}
    (h : operandValue table field t = .ok v) : field.Fits v := by
  obtain ⟨kind, line, word⟩ := t
  cases field with
  | register =>
    cases kind with
    | register r =>
      cases h
      exact r.isLt
    | label | opcode | numeric | signed | hex | identifier | eof => cases h
  | immediate width =>
    have hpos : 0 < 2 ^ width := Nat.two_pow_pos width
    cases kind with
    | numeric | signed =>
      cases h
      exact Nat.mod_lt _ hpos
    | hex digits =>
      cases hvalue : hexValue digits with
      | none => simp [operandValue, hvalue] at h
      | some value =>
        simp only [operandValue, hvalue] at h
        cases h
        exact Nat.mod_lt _ hpos
    | identifier name =>
      cases hoffset : table.offset name with
      | none => simp [operandValue, hoffset] at h
      | some offset =>
        simp only [operandValue, hoffset] at h
        cases h
        exact Nat.mod_lt _ hpos
    | label | opcode | register | eof => cases h

theorem fitsSoFar_none : FitsSoFar none := trivial

theorem fitsSoFar_start (op : Mnemonic) : FitsSoFar (some ⟨op, fieldKinds op.shape, []⟩) :=
  ⟨[], rfl, .nil⟩

/-- One more value, for the field that was missing next. -/
theorem FitsSoFar.read {op : Mnemonic} {field : FieldKind} {more : List FieldKind} {values : List Nat} {v : Nat}
    (h : FitsSoFar (some ⟨op, field :: more, values⟩)) (hv : field.Fits v) :
    FitsSoFar (some ⟨op, more, values ++ [v]⟩) := by
  obtain ⟨read, hkinds, hfits⟩ := h
  exact ⟨read ++ [field], by rw [hkinds, List.append_assoc]; rfl, List.rel_append hfits (.cons hv .nil)⟩

/-- Where no field is missing, every field has its value. -/
theorem FitsSoFar.complete {op : Mnemonic} {values : List Nat} (h : FitsSoFar (some ⟨op, [], values⟩)) :
    List.Forall₂ FieldKind.Fits (fieldKinds op.shape) values := by
  obtain ⟨read, hkinds, hfits⟩ := h
  rwa [hkinds, List.append_nil]

/-- Field values that fit pass the register checks. -/
theorem checkFields_of_fits {op : Mnemonic} {values : List Nat}
    (h : List.Forall₂ FieldKind.Fits (fieldKinds op.shape) values) (b : Byte) :
    checkFields (b ++ (rawOfValues op values).fieldBits) op.shape = .ok () := by
  cases hshape : op.shape with
  | dss =>
    rw [hshape] at h
    obtain _ | ⟨h1, _ | ⟨h2, _ | ⟨h3, _⟩⟩⟩ := h
    simp only [RawInstr.fieldBits, rawOfValues, hshape]
    exact Laws.dss_roundTrip b ⟨_, h1⟩ ⟨_, h2⟩ ⟨_, h3⟩ fun _ _ _ => ()
  | dsi =>
    rw [hshape] at h
    obtain _ | ⟨h1, _ | ⟨h2, _ | ⟨h3, _⟩⟩⟩ := h
    simp only [RawInstr.fieldBits, rawOfValues, hshape]
    exact Laws.dsi_roundTrip b ⟨_, h1⟩ ⟨_, h2⟩ (BitVec.ofNatLT _ h3) fun _ _ _ => ()
  | ds =>
    rw [hshape] at h
    obtain _ | ⟨h1, _ | ⟨h2, _⟩⟩ := h
    simp only [RawInstr.fieldBits, rawOfValues, hshape]
    exact Laws.ds_roundTrip b ⟨_, h1⟩ ⟨_, h2⟩ fun _ _ => ()
  | di =>
    rw [hshape] at h
    obtain _ | ⟨h1, _ | ⟨h2, _⟩⟩ := h
    simp only [RawInstr.fieldBits, rawOfValues, hshape]
    exact Laws.di_roundTrip b ⟨_, h1⟩ (BitVec.ofNatLT _ h2) fun _ _ => ()
  | i => rfl

/-- A word packed from values that fit is an instruction's. -/
theorem encodeRaw_of_fits {m : OpcodeMap} (hm : m.injective = true) {op : Mnemonic} {values : List Nat}
    (h : List.Forall₂ FieldKind.Fits (fieldKinds op.shape) values) :
    ∃ i, encode m i = encodeRaw m (rawOfValues op values) := by
  have hread := operandsRead_checkFields (w := encodeRaw m (rawOfValues op values)) op.shape
  rw [encodeRaw, checkFields_of_fits h] at hread
  obtain ⟨i, hi, _⟩ := decodeOperands_of_legalRegisters hread.none_of_ok
  refine ⟨i, encodeInvertsDecode m _ i ((decode_of_slot_core ?_).trans hi)⟩
  rw [encodeRaw, Laws.opcodeByte_append]
  exact OpcodeMap.slot_byteOf hm op

/-- Every emitted word is an instruction's. -/
theorem encodes_of_emitWords {m : OpcodeMap} (hm : m.injective = true) {table : LabelTable}
    {pending : Option Pending} (hpending : FitsSoFar pending) {tokens : List Token}
    {words : List Word} (h : emitWords m table pending tokens = .ok words) :
    ∃ is : List Instr, words = is.map (encode m) := by
  induction tokens generalizing pending words with
  | nil =>
    simp only [emitWords] at h
    cases h
    exact ⟨[], rfl⟩
  | cons t rest ih =>
    cases pending with
    | none =>
      obtain ⟨kind, line, word⟩ := t
      cases kind with
      | opcode op =>
        exact ih (fitsSoFar_start op) ((emitWords_opcode m table rfl rest).symm.trans h)
      | label => exact ih hpending h
      | eof =>
        cases h
        exact ⟨[], rfl⟩
      | register | numeric | signed | hex | identifier => cases h
    | some p =>
      obtain ⟨op, _ | ⟨field, _ | ⟨next, more⟩⟩, values⟩ := p
      · cases h
      · simp only [emitWords] at h
        obtain ⟨v, hv, h⟩ := exists_of_bind_ok h
        obtain ⟨later, hlater, h⟩ := exists_of_bind_ok h
        cases h
        obtain ⟨i, hi⟩ := encodeRaw_of_fits hm (hpending.read (fits_of_operandValue hv)).complete
        obtain ⟨is, rfl⟩ := ih fitsSoFar_none hlater
        exact ⟨i :: is, by rw [List.map_cons, hi]⟩
      · simp only [emitWords] at h
        obtain ⟨v, hv, h⟩ := exists_of_bind_ok h
        exact ih (hpending.read (fits_of_operandValue hv)) h

/-! ### Streams of words -/

theorem bytesOfWord_wordOfBytes (b0 b1 b2 b3 : Byte) :
    bytesOfWord (wordOfBytes b0 b1 b2 b3) = [b0, b1, b2, b3] := by
  have h0 := b0.isLt
  have h1 := b1.isLt
  have h2 := b2.isLt
  have h3 := b3.isLt
  have hbyte : ∀ (start : Nat) (b : Byte), (wordOfBytes b0 b1 b2 b3).toNat / 2 ^ start % 2 ^ 8 = b.toNat →
      (wordOfBytes b0 b1 b2 b3).extractLsb' start 8 = b := fun start b h =>
    BitVec.eq_of_toNat_eq (by rwa [BitVec.extractLsb'_toNat, Nat.shiftRight_eq_div_pow])
  rw [wordOfBytes_toNat] at hbyte
  rw [bytesOfWord, hbyte 24 b0 (by omega), hbyte 16 b1 (by omega), hbyte 8 b2 (by omega), hbyte 0 b3 (by omega)]

/-- A decoded stream is the bytes of its instructions' words. -/
theorem bytes_of_decodeStream {m : OpcodeMap} {bytes : List Byte} {is : List Instr}
    (h : decodeStream m bytes = .ok is) : (is.map (encode m)).flatMap bytesOfWord = bytes := by
  induction bytes using decodeStream.induct generalizing is with
  | case1 =>
    cases h
    rfl
  | case2 b0 b1 b2 b3 rest ih =>
    rw [decodeStream] at h
    obtain ⟨i, hdecode, h⟩ := exists_of_bind_ok h
    obtain ⟨is, hrest, h⟩ := exists_of_bind_ok h
    cases h
    rw [List.map_cons, List.flatMap_cons, ih hrest, encodeInvertsDecode m _ i hdecode, bytesOfWord_wordOfBytes]
    rfl
  | case3 bytes hnil hcons =>
    rw [decodeStream] at h
    · cases h
    · exact hnil
    · exact hcons

theorem decodeStream_encode {m : OpcodeMap} (hm : m.injective = true) (is : List Instr) :
    decodeStream m ((is.map (encode m)).flatMap bytesOfWord) = .ok is := by
  induction is with
  | nil => rfl
  | cons i is ih =>
    rw [List.map_cons, List.flatMap_cons, bytesOfWord]
    simp only [List.cons_append, List.nil_append, decodeStream, wordOfBytes_bytes, decode_encode hm, ih]
    rfl

/-! ### Reassembly (spec/30_encoding.md R96) -/

theorem assemble_renderStream {m : OpcodeMap} {bytes : List Byte} {is : List Instr}
    (h : decodeStream m bytes = .ok is) : assemble m (renderStream is) = .ok bytes := by
  have hkinds := kinds_lex_renderStream is
  have hlabels : labelPass 0 [] (lex (renderStream is)) = .ok [] :=
    labelPass_of_no_label (hkinds ▸ kinds_stream_ne_label is) 0 []
  have hwords : assembleWords m (renderStream is) = .ok (is.map (encode m)) := by
    rw [assembleWords, hlabels]
    exact emitWords_stream m [] hkinds
  rw [assemble, hwords, ← bytes_of_decodeStream h]
  rfl

theorem words_of_assemble {m : OpcodeMap} {source : List Char} {bytes : List Byte}
    (h : assemble m source = .ok bytes) :
    ∃ table words, emitWords m table none (lex source) = .ok words ∧ words.flatMap bytesOfWord = bytes := by
  obtain ⟨words, hassembled, h⟩ := exists_of_bind_ok h
  obtain ⟨table, _, hwords⟩ := exists_of_bind_ok hassembled
  cases h
  exact ⟨table, words, hwords, rfl⟩

/-- Settles O57: both tools go through the instructions' words. -/
theorem reassemblyGivesTheSameBytes : Obligations.ReassemblyGivesTheSameBytes := by
  refine ⟨fun m bytes text h => ?_, fun m source bytes hm h => ?_, fun m bytes is h => ?_⟩
  · obtain ⟨is, hdecode, rfl⟩ := decodeStream_of_disassemble h
    exact assemble_renderStream hdecode
  · obtain ⟨table, words, hwords, rfl⟩ := words_of_assemble h
    obtain ⟨is, rfl⟩ := encodes_of_emitWords hm fitsSoFar_none hwords
    have hdecode := decodeStream_encode hm is
    exact ⟨renderStream is, disassemble_eq hdecode, assemble_renderStream hdecode⟩
  · refine ⟨is.map (encode m), emitWords_stream m [] ?_, bytes_of_decodeStream h⟩
    rw [kinds_append]
    rfl

end Sys2Proof.Toolchain
end

section
/-!
SUPPORT. The order of a step's checks, the ends of a running core's step, and from these the instruction cap
and the length of a capped run (spec/40_execution_kernel.md R101 to R112).
-/

namespace Sys2Proof

/-! ### The errors of the decoder (spec/30_encoding.md R68, spec/60_exceptions.md R213) -/

/-- An extended map's word is rejected at its first illegal register field, else for want of an executor. -/
theorem decode_of_slot_extension {m : OpcodeMap} {w : Word} {sh : Shape}
    (h : m.slot (opcodeByte w) = .extension sh) :
    decode m w = (checkFields w sh >>= fun _ => .error (.unimplemented (opcodeByte w))) := by
  simp only [decode, h]

theorem OperandsRead.ne_truncatedWord {α : Type} {P : α → Prop} {first : Option (Nat × Nat)}
    {r : Except DecodeError α} (h : OperandsRead P first r) : r ≠ .error .truncatedWord := by
  cases h with
  | rejected | accepted => nofun

theorem bind_ne_error {ε α β : Type} {r : Except ε α} {f : α → Except ε β} {e : ε} (hr : r ≠ .error e)
    (hf : ∀ x, f x ≠ .error e) : (r >>= f) ≠ .error e := by
  cases r with
  | ok x => exact hf x
  | error d =>
    rintro ⟨⟩
    exact hr rfl

/-- A whole word is never rejected for its length. -/
theorem decode_ne_truncatedWord (m : OpcodeMap) (w : Word) : decode m w ≠ .error .truncatedWord := by
  cases hslot : m.slot (opcodeByte w) with
  | unassigned =>
    simp only [decode, hslot]
    nofun
  | core op =>
    rw [decode_of_slot_core hslot]
    exact (operandsRead_decodeOperands w op).ne_truncatedWord
  | extension sh =>
    rw [decode_of_slot_extension hslot]
    exact bind_ne_error (operandsRead_checkFields sh).ne_truncatedWord fun _ => nofun

theorem decodeBytes_ne_truncatedWord (m : OpcodeMap) (b0 b1 b2 b3 : Byte) (rest : List Byte) :
    decodeBytes m (b0 :: b1 :: b2 :: b3 :: rest) ≠ .error .truncatedWord :=
  bind_ne_error (decode_ne_truncatedWord m _) fun _ => nofun

/-- A stream that may be launched consists of whole words (spec/20_memory.md R41). -/
theorem Config.imemLen_mod_four {cfg : Config} (h : cfg.wellFormed = true) : cfg.imemLen % 4 = 0 := by
  simp only [Config.wellFormed, Config.streamLengthLegal, Bool.and_eq_true, decide_eq_true_eq] at h
  omega

end Sys2Proof

namespace Sys2Proof.Machine

/-! ### The checks of a step in their order (spec/60_exceptions.md R213) -/

theorem step_of_fetchDecode_error {s : State} {o : Host.Outcome State Fault Refusal}
    (h : fetchDecode s = .error o) : step s = o := by
  rw [step, h]

theorem step_of_not_running {s : State} (h : s.status ≠ .running) : step s = .fault (.stopped s.status) :=
  step_of_fetchDecode_error (fetchDecode_stopped s h)

theorem running_of_step {s t : State} (hstep : step s = .next t) : s.status = .running := by
  by_contra hstopped
  cases (step_of_not_running hstopped).symm.trans hstep

/-- Settles O13: `stopped` is no next state. -/
theorem noStepUnlessRunning : Obligations.NoStepUnlessRunning :=
  ⟨fun _ _ => running_of_step, fun _ => step_of_not_running⟩

theorem step_pastEnd {s : State} (hrun : s.status = .running) (hend : s.cfg.imemLen ≤ s.pc) :
    step s = .next (haltWith s .haltedEnd) :=
  step_of_fetchDecode_error (fetchDecode_end s hrun hend)

/-- Settles O14: the end of the stream is the first check, and 0 is the end of an empty stream. -/
theorem pcPastEndHalts : Obligations.PcPastEndHalts :=
  ⟨fun _ => step_pastEnd, fun _ hempty => step_pastEnd rfl (Nat.le_of_eq hempty)⟩

/-- Settles O15: past the end and the cap, the alignment is checked next. -/
theorem misalignedFetchFaults : Obligations.MisalignedFetchFaults := by
  intro s hrun hpc hcap halign
  have hfetch := fetchDecode_misaligned s hrun hpc ((capReached_false_iff s).mpr hcap) halign
  exact ⟨_, step_of_fetchDecode_error hfetch, faultTaken_raiseFault s _⟩

/-- Settles O11: past the checks a step is decided by the decoding of the word at the pc. -/
theorem stepRunsDecodedInstruction : Obligations.StepRunsDecodedInstruction := by
  intro s i hfetches hdecode
  rw [step_of_fetches hfetches, hdecode]

/-- Settles O9: the register checks of the shape stand before UNIMPLEMENTED in the decoder. -/
theorem opcodeWithoutExecutorFaults : Obligations.OpcodeWithoutExecutorFaults := by
  intro s sh hfetches hslot
  have hdecode := decode_of_slot_extension hslot
  have hread := operandsRead_checkFields (w := wordAtPc s) sh
  split
  · next hfirst =>
    rw [hfirst] at hread
    obtain ⟨_, hcheck, _⟩ := hread.ok_of_none
    rw [hcheck] at hdecode
    exact ⟨_, step_of_decode_error hfetches hdecode, faultTaken_raiseFault s _⟩
  · next hfirst =>
    rw [hfirst] at hread
    rw [hread.error_of_some] at hdecode
    exact ⟨_, step_of_decode_error hfetches hdecode, faultTaken_raiseFault s _⟩

/-! ### The ends of a running core's step (spec/40_execution_kernel.md R102 to R109) -/

/-- The ends of `StepEnd` with the two halts told apart and what the cap says at each. -/
inductive RunningEnd (s : State) : State → Prop where
  | haltedEnd : RunningEnd s (haltWith s .haltedEnd)
  | haltedLimit (hcap : capReached s = true) : RunningEnd s (haltWith s .haltedLimit)
  | faulted {f : Raised} (hcause : f.cause ≠ .noFault) : RunningEnd s (raiseFault s f)
  | completed {i : Instr} {e : Effect} (hcap : capReached s = false)
      (hdecode : decode s.cfg.opcodeMap (wordAtPc s) = .ok i) (hexec : exec i s = .next (commit s e)) :
      RunningEnd s (commit s e)

theorem runningEnd_of_exec {s t : State} {i : Instr} (hcap : capReached s = false)
    (hdecode : decode s.cfg.opcodeMap (wordAtPc s) = .ok i) (hexec : exec i s = .next t) : RunningEnd s t := by
  have hend : InstructionEnd s (.next t) := hexec ▸ instructionEnd_exec i s
  cases hend with
  | completed => exact .completed hcap hdecode hexec
  | faulted hf => exact .faulted hf.cause

/-- Each case of `step_cases` that answers a next state is one of the ends. -/
theorem runningEnd_of_step {s t : State} (hstep : step s = .next t) : RunningEnd s t := by
  rcases step_cases s with ⟨_, h⟩ | ⟨_, _, h⟩ | ⟨_, _, hcap, h⟩ | ⟨_, _, _, _, h⟩ |
    ⟨_, _, _, _, e, hdecode, h⟩ | ⟨_, _, hcap, _, i, _, hdecode, h⟩
  · cases h.symm.trans hstep
  · cases h.symm.trans hstep
    exact .haltedEnd
  · cases h.symm.trans hstep
    exact .haltedLimit hcap
  · cases h.symm.trans hstep
    exact .faulted nofun
  · obtain ⟨f, rfl, hf⟩ := rejectWord_next (errorsInRange_decodeBytes _ _ e hdecode) (h.symm.trans hstep)
    exact .faulted hf.cause
  · exact runningEnd_of_exec hcap (decode_wordAtPc hdecode) (h.symm.trans hstep)

/-! ### A running core has a next state (spec/40_execution_kernel.md R110) -/

theorem InstructionEnd.exists_next {s : State} {o : Host.Outcome State Fault Refusal} (h : InstructionEnd s o) :
    ∃ t, o = .next t := by
  cases h with
  | completed | faulted => exact ⟨_, rfl⟩

theorem exists_next_of_rejectWord (s : State) {e : DecodeError} (h : e ≠ .truncatedWord) :
    ∃ t, rejectWord s e = .next t := by
  cases e with
  | truncatedWord => exact absurd rfl h
  | illegalOpcode | illegalRegister | unimplemented => exact ⟨_, rfl⟩

/-- In a stream of whole words no fetch is cut short, and that was the one refusal. -/
theorem exists_next_of_running {s : State} (hlen : s.cfg.imemLen % 4 = 0) (hrun : s.status = .running) :
    ∃ t, step s = .next t := by
  rcases step_cases s with ⟨hstopped, _⟩ | ⟨_, _, h⟩ | ⟨_, _, _, h⟩ | ⟨_, _, _, _, h⟩ |
    ⟨_, hpc, _, halign, e, hdecode, h⟩ | ⟨_, _, _, _, i, _, _, h⟩
  · exact absurd hrun hstopped
  · exact ⟨_, h⟩
  · exact ⟨_, h⟩
  · exact ⟨_, h⟩
  · rw [h]
    refine exists_next_of_rejectWord s ?_
    rintro rfl
    rw [fetchBytes_eq s (wholeWord hlen halign hpc)] at hdecode
    exact decodeBytes_ne_truncatedWord _ _ _ _ _ _ hdecode
  · rw [h]
    exact (instructionEnd_exec i s).exists_next

theorem sameControl_commit (s : State) (e : Effect) : SameControl s (commit s e) :=
  ⟨commit_cfg s e, commit_status s e, commit_faultCause s e, commit_faultPc s e, commit_faultInfo s e⟩

/-- An instruction that does not store to a cell leaves it alone (spec/20_memory.md R46). -/
theorem cell_of_exec_of_not_stored {s t : State} {i : Instr} {a : Nat} (hexec : exec i s = .next t)
    (hother : ∀ (width : Width) (rs2 rs1 : Reg) (imm : BitVec 8), i = storeOf width rs2 rs1 imm →
      a ≠ addressOf width s rs1 imm) : t.cell a = s.cell a := by
  by_contra hchanged
  obtain ⟨width, rs2, rs1, imm, hi, ha, _⟩ := storeOf_of_exec_changes hexec hchanged
  exact hother width rs2 rs1 imm hi ha

/-- Settles O17: the step has a next state, and its end is one of the four. -/
theorem everyStepHaltsFaultsOrCompletesOne : Obligations.EveryStepHaltsFaultsOrCompletesOne := by
  intro s hs hrun
  obtain ⟨t, hstep⟩ := exists_next_of_running (Config.imemLen_mod_four hs.launched) hrun
  refine ⟨t, hstep, ?_⟩
  cases runningEnd_of_step hstep with
  | haltedEnd => exact .inl rfl
  | haltedLimit => exact .inr (.inl rfl)
  | faulted hcause => exact .inr (.inr (.inl ⟨_, _, hcause, faultTaken_raiseFault s _⟩))
  | completed _ hdecode hexec =>
    exact .inr (.inr (.inr ⟨_, hdecode, hexec, (commit_status s _).trans hrun, commit_retired s _,
      sameControl_commit s _, fun r => keepsOtherRegisters_exec _ s _ r hexec,
      fun _ => cell_of_exec_of_not_stored hexec⟩))

/-! ### The instruction cap (spec/40_execution_kernel.md R103) -/

theorem step_capReached {s : State} (hrun : s.status = .running) (hpc : s.pc < s.cfg.imemLen)
    (hcap : capReached s = true) : step s = .next (haltWith s .haltedLimit) :=
  step_of_fetchDecode_error (fetchDecode_cap s hrun hpc hcap)

/-- The part of the invariant about the cap, which needs no legal launch: it bounds the completed instructions,
and a core halted by it has completed as many as it gives. -/
structure WithinCap (s : State) : Prop where
  bound : ∀ n, s.cfg.maxSteps = some n → s.retired ≤ n
  exact_of_haltedLimit : s.status = .haltedLimit → ∃ n, s.cfg.maxSteps = some n ∧ s.retired = n

theorem withinCap_ofConfig (cfg : Config) : WithinCap (State.ofConfig cfg) :=
  ⟨fun _ _ => Nat.zero_le _, nofun⟩

/-- An instruction completes only below the cap, so there is room for one more. -/
theorem WithinCap.after_step {s t : State} (hs : WithinCap s) (hstep : step s = .next t) : WithinCap t := by
  cases runningEnd_of_step hstep with
  | haltedEnd => exact ⟨hs.bound, nofun⟩
  | haltedLimit hcap =>
    obtain ⟨n, hn, hle⟩ := (capReached_iff s).mp hcap
    exact ⟨hs.bound, fun _ => ⟨n, hn, Nat.le_antisymm (hs.bound n hn) hle⟩⟩
  | faulted => exact ⟨hs.bound, nofun⟩
  | completed hcap =>
    refine ⟨fun n hn => ?_, ?_⟩
    · rw [commit_cfg] at hn
      exact (capReached_false_iff s).mp hcap n hn
    · simp [running_of_step hstep]

theorem WithinCap.of_run {cfg : Config} {k : Nat} {t : State}
    (hrun : Sys2Proof.core.run k (State.ofConfig cfg) = .next t) : WithinCap t :=
  run_keeps WithinCap (fun _ _ => WithinCap.after_step) k _ t (withinCap_ofConfig cfg) hrun

/-- Settles O18: the check of the cap, then `WithinCap` along every run from reset. -/
theorem capLimitsEveryRun : Obligations.CapLimitsEveryRun := by
  refine ⟨fun s n hrun hpc hn hle => ?_, fun cfg n k t hn hrun => ?_, fun cfg k t hnone hrun hlimit => ?_⟩
  · exact step_capReached hrun hpc ((capReached_iff s).mpr ⟨n, hn, hle⟩)
  · have hwithin := WithinCap.of_run hrun
    have hcap : t.cfg.maxSteps = some n := (configurationNeverChanges k _ t hrun) ▸ hn
    refine ⟨hwithin.bound n hcap, fun hlimit => ?_⟩
    obtain ⟨m, hm, hretired⟩ := hwithin.exact_of_haltedLimit hlimit
    cases hcap.symm.trans hm
    exact hretired
  · have hnocap : t.cfg.maxSteps = none := (configurationNeverChanges k _ t hrun) ▸ hnone
    obtain ⟨m, hm, _⟩ := (WithinCap.of_run hrun).exact_of_haltedLimit hlimit
    cases hnocap.symm.trans hm

/-! ### The length of a capped run (spec/40_execution_kernel.md R112, spec/60_exceptions.md R219) -/

/-- A run of one step. -/
theorem run_one {s t : State} (hstep : step s = .next t) : Sys2Proof.core.run 1 s = .next t :=
  run_next hstep

/-- With room for `room` more instructions under the cap, every step but the last takes up one of them. -/
theorem exists_run_not_running {n room : Nat} {s : State} (hlen : s.cfg.imemLen % 4 = 0)
    (hrun : s.status = .running) (hn : s.cfg.maxSteps = some n) (hroom : n ≤ s.retired + room) :
    ∃ (k : Nat) (t : State), k ≤ room + 1 ∧ Sys2Proof.core.run k s = .next t ∧ t.status ≠ .running := by
  induction room generalizing s with
  | zero =>
    obtain ⟨t, hstep⟩ := exists_next_of_running hlen hrun
    refine ⟨1, t, Nat.le_refl 1, run_one hstep, ?_⟩
    cases runningEnd_of_step hstep with
    | haltedEnd | haltedLimit | faulted => nofun
    | completed hcap => exact absurd hroom (Nat.not_le.mpr ((capReached_false_iff s).mp hcap n hn))
  | succ room ih =>
    obtain ⟨u, hstep⟩ := exists_next_of_running hlen hrun
    cases runningEnd_of_step hstep with
    | haltedEnd | haltedLimit | faulted => exact ⟨1, _, Nat.le_add_left 1 _, run_one hstep, nofun⟩
    | @completed i e =>
      obtain ⟨k, t, hk, hrest, ht⟩ := ih (s := commit s e) (by rwa [commit_cfg]) (by rwa [commit_status])
        (by rwa [commit_cfg]) (by rw [commit_retired]; omega)
      exact ⟨k + 1, t, Nat.succ_le_succ hk, (run_next hstep).trans hrest, ht⟩

/-- Settles O19: at reset no instruction has completed, so there is room for all `N`. -/
theorem cappedRunsEnd : Obligations.CappedRunsEnd :=
  fun _ n hlegal hn =>
    exists_run_not_running (Config.imemLen_mod_four hlegal) rfl hn (Nat.le_add_left n 0)

end Sys2Proof.Machine
end

section
/-!
SUPPORT. The register-register ALU instructions and SEQZ (spec/41_alu_register.md): the words that spell them,
the one register write they end in, and the values they write.
-/

namespace Sys2Proof

open Machine

/-! ### Words put together from their fields (spec/30_encoding.md R61) -/

theorem wordOfThree_eq (b f1 f2 f3 : BitVec 8) : wordOfThree b f1 f2 f3 = (b ++ (f1 ++ f2 ++ f3) : BitVec 32) := by
  have hlower : (b ++ f1 ++ f2 : BitVec 24) = b ++ (f1 ++ f2) := BitVec.append_assoc ..
  calc wordOfThree b f1 f2 f3 = (b ++ (f1 ++ f2) : BitVec 24) ++ f3 := congrArg (fun x => x ++ f3) hlower
    _ = b ++ (f1 ++ f2 ++ f3) := BitVec.append_assoc ..

theorem wordOfTwo_eq (b f1 : BitVec 8) (f2 : BitVec 16) : wordOfTwo b f1 f2 = (b ++ (f1 ++ f2) : BitVec 32) :=
  BitVec.append_assoc ..

/-! ### Words that decode under the default map -/

/-- A word of shape DSS spells the instruction with the mnemonic of its opcode byte and its three registers. -/
theorem decode_dss (op : Mnemonic) {i : Instr} {f1 f2 f3 : Reg} (hraw : i.raw = ⟨op, f1, f2, f3⟩)
    (hshape : op.shape = .dss) :
    decode OpcodeMap.default (wordOfThree op.defaultByte (regBits f1) (regBits f2) (regBits f3)) =
      .ok i := by
  apply decode_default_of_encode
  rw [wordOfThree_eq, encode, encodeRaw, hraw, byteOf_default, RawInstr.fieldBits, hshape]
  rfl

/-- A word of shape DS, whose second register stands in 16 bits. -/
theorem decode_ds (op : Mnemonic) {i : Instr} {f1 f2 : Reg} (hraw : i.raw = ⟨op, f1, f2, 0⟩)
    (hshape : op.shape = .ds) :
    decode OpcodeMap.default (wordOfTwo op.defaultByte (regBits f1) (BitVec.ofNat 16 f2.val)) = .ok i := by
  apply decode_default_of_encode
  rw [wordOfTwo_eq, encode, encodeRaw, hraw, byteOf_default, RawInstr.fieldBits, hshape]
  rfl

/-! ### Words rejected for a register field (spec/30_encoding.md R69) -/

theorem slot_defaultByte (op : Mnemonic) : OpcodeMap.default.slot op.defaultByte = .core op := by
  rw [← byteOf_default, OpcodeMap.slot_byteOf OpcodeMap.injective_default]

theorem decode_default_of_illegalRegister {op : Mnemonic} {w : Word} {k v : Nat}
    (hop : opcodeByte w = op.defaultByte) (hfirst : firstIllegalRegister op.shape w = some (k, v)) :
    decode OpcodeMap.default w = .error (.illegalRegister k v) := by
  rw [decode_of_slot_core (hop ▸ slot_defaultByte op), decodeOperands_of_illegalRegister hfirst]

theorem regBits_toNat_lt (r : Reg) : (regBits r).toNat < 32 := by
  have hr := r.isLt
  simp only [regBits, BitVec.toNat_ofNat]
  omega

theorem firstIllegalRegister_wordOfThree (b f1 f2 f3 : BitVec 8) :
    firstIllegalRegister .dss (wordOfThree b f1 f2 f3) =
      if 32 ≤ f1.toNat then some (1, f1.toNat) else if 32 ≤ f2.toNat then some (2, f2.toNat)
      else if 32 ≤ f3.toNat then some (3, f3.toNat) else none := by
  simp only [firstIllegalRegister, ← field23to16_toNat, ← field15to8_toNat, ← field7to0_toNat,
    wordOfThree_eq, Laws.field23to16_three, Laws.field15to8_three, Laws.field7to0_three]

theorem firstIllegalRegister_wordOfTwo (b f1 : BitVec 8) (f2 : BitVec 16) :
    firstIllegalRegister .ds (wordOfTwo b f1 f2) =
      if 32 ≤ f1.toNat then some (1, f1.toNat) else if 32 ≤ f2.toNat then some (2, f2.toNat) else none := by
  simp only [firstIllegalRegister, ← field23to16_toNat, ← field15to0_toNat, wordOfTwo_eq,
    Laws.field23to16_two, Laws.field15to0_two]

/-- A DSS word with two legal registers and a third field of 32 or more. -/
theorem decode_dss_illegalThird {op : Mnemonic} (hshape : op.shape = .dss) (f1 f2 : Reg) {f3 : BitVec 8}
    (h : 32 ≤ f3.toNat) :
    decode OpcodeMap.default (wordOfThree op.defaultByte (regBits f1) (regBits f2) f3) =
      .error (.illegalRegister 3 f3.toNat) := by
  apply decode_default_of_illegalRegister
  · rw [wordOfThree_eq, Laws.opcodeByte_append]
  · rw [hshape, firstIllegalRegister_wordOfThree, if_neg (Nat.not_le.mpr (regBits_toNat_lt f1)),
      if_neg (Nat.not_le.mpr (regBits_toNat_lt f2)), if_pos h]

/-- A DS word with a legal destination and a 16-bit second field of 32 or more. -/
theorem decode_ds_illegalSecond {op : Mnemonic} (hshape : op.shape = .ds) (f1 : Reg) {f2 : BitVec 16}
    (h : 32 ≤ f2.toNat) :
    decode OpcodeMap.default (wordOfTwo op.defaultByte (regBits f1) f2) =
      .error (.illegalRegister 2 f2.toNat) := by
  apply decode_default_of_illegalRegister
  · rw [wordOfTwo_eq, Laws.opcodeByte_append]
  · rw [hshape, firstIllegalRegister_wordOfTwo, if_neg (Nat.not_le.mpr (regBits_toNat_lt f1)), if_pos h]

end Sys2Proof

namespace Sys2Proof.Machine

/-! ### The end in one register write (spec/40_execution_kernel.md R107, spec/41_alu_register.md R120) -/

theorem registerWritten_commit (s : State) (rd : Reg) (v : Word) (jump : Option Int) :
    RegisterWritten s (commit s ⟨some (rd, v), none, jump⟩) rd v (nextPc s.pc jump) where
  dest hrd := by rw [reg_commit_some, if_neg hrd, if_pos rfl]
  zero := reg_zero _
  others r hr := reg_commit_of_ne fun hrd => hr (Option.some.inj hrd).symm
  cells a := cell_commit_none s a _ jump
  pc := rfl
  retired := rfl
  control := sameControl_commit s _

/-- An instruction that writes `v` completes with the value a statement asks for when the two are equal. -/
theorem writeResult_registerWritten {s : State} {rd : Reg} {v w : Word} (h : v = w) :
    ∃ t, writeResult s rd v = .next t ∧ RegisterWritten s t rd w (s.pc + 4) :=
  ⟨_, writeResult_eq s rd v, h ▸ registerWritten_commit s rd v none⟩

/-! ### ADD, MUL and MULH (spec/41_alu_register.md R121 to R123) -/

/-- Settles O23: `addWrap` is the sum, masked. -/
theorem addWrapsModulo32Bits : Obligations.AddWrapsModulo32Bits :=
  fun _ _ _ _ => ⟨decode_dss .add rfl rfl, writeResult_registerWritten rfl⟩

/-- Settles O24: `mulLow` is the product modulo 2^16. -/
theorem mulKeepsLow16Bits : Obligations.MulKeepsLow16Bits :=
  fun _ _ _ _ => ⟨decode_dss .mul rfl rfl, writeResult_registerWritten rfl⟩

/-- Of a number shifted up by 16, a word keeps the low 16 bits. -/
theorem u32_mul_two_pow_16 (p : Nat) : u32 (p * 2 ^ 16) = u32 (p % 2 ^ 16 * 2 ^ 16) := by
  apply BitVec.eq_of_toNat_eq
  simp only [BitVec.toNat_ofNat]
  omega

/-- Settles O25: the default mode keeps the product's low half, the other one is `mulHigh` itself. -/
theorem mulhFollowsItsMode : Obligations.MulhFollowsItsMode := by
  intro s rd rs1 rs2
  refine ⟨decode_dss .mulh rfl rfl, writeResult_registerWritten ?_⟩
  cases s.cfg.mulhMode with
  | shiftIntoHigh => exact u32_mul_two_pow_16 _
  | highHalf => rfl

/-! ### DIV and REM (spec/41_alu_register.md R124, R125) -/

/-- An instruction that faults where `c` holds takes its fault there and is committed elsewhere. -/
theorem complete_checked (s : State) (c : Prop) [Decidable c] (f : Raised) (e : Effect) :
    complete s (if c then .error f else .ok e) = if c then .next (raiseFault s f) else .next (commit s e) := by
  split <;> rfl

section Divide
variable {s : State} {rd rs1 rs2 : Reg}

theorem exec_div_of_ne_zero (h : s.reg rs2 ≠ 0#32) :
    exec (.div rd rs1 rs2) s = writeResult s rd (divUnsigned (s.reg rs1) (s.reg rs2)) :=
  (complete_checked s _ _ _).trans (if_neg h)

theorem exec_rem_of_ne_zero (h : s.reg rs2 ≠ 0#32) :
    exec (.rem rd rs1 rs2) s = writeResult s rd (remUnsigned (s.reg rs1) (s.reg rs2)) :=
  (complete_checked s _ _ _).trans (if_neg h)

theorem exec_div_of_eq_zero (h : s.reg rs2 = 0#32) :
    exec (.div rd rs1 rs2) s = .next (raiseFault s ⟨.divideByZero, 0⟩) :=
  (complete_checked s _ _ _).trans (if_pos h)

theorem exec_rem_of_eq_zero (h : s.reg rs2 = 0#32) :
    exec (.rem rd rs1 rs2) s = .next (raiseFault s ⟨.divideByZero, 0⟩) :=
  (complete_checked s _ _ _).trans (if_pos h)

end Divide

theorem divUnsigned_toNat (a b : Word) : (divUnsigned a b).toNat = a.toNat / b.toNat :=
  Nat.mod_eq_of_lt (Nat.lt_of_le_of_lt (Nat.div_le_self _ _) a.isLt)

theorem remUnsigned_toNat (a b : Word) : (remUnsigned a b).toNat = a.toNat % b.toNat :=
  Nat.mod_eq_of_lt (Nat.lt_of_le_of_lt (Nat.mod_le _ _) a.isLt)

theorem toNat_pos_of_ne_zero {b : Word} (h : b ≠ 0#32) : 0 < b.toNat :=
  Nat.pos_of_ne_zero fun hzero => h (BitVec.eq_of_toNat_eq hzero)

/-- Settles O26, by whether the divisor is 0. -/
theorem divTruncatesOrFaults : Obligations.DivTruncatesOrFaults := by
  refine fun s rd rs1 rs2 => ⟨decode_dss .div rfl rfl, fun hdivisor => ?_, fun hzero => ?_⟩
  · rw [exec_div_of_ne_zero hdivisor]
    exact writeResult_registerWritten rfl
  · exact ⟨_, exec_div_of_eq_zero hzero, faultTaken_raiseFault s _⟩

/-- Settles O27: as O26, and no masking touches quotient or remainder, so they divide the numbers. -/
theorem remIsRemainderOrFaults : Obligations.RemIsRemainderOrFaults := by
  refine fun s rd rs1 rs2 =>
    ⟨decode_dss .rem rfl rfl, fun hdivisor => ?_, fun hdivisor hrd => ?_, fun hzero => ?_⟩
  · rw [exec_rem_of_ne_zero hdivisor]
    exact writeResult_registerWritten rfl
  · refine ⟨_, _, exec_div_of_ne_zero hdivisor, exec_rem_of_ne_zero hdivisor, ?_⟩
    rw [(registerWritten_commit s rd _ none).dest hrd, (registerWritten_commit s rd _ none).dest hrd,
      divUnsigned_toNat, remUnsigned_toNat]
    exact ⟨(Nat.div_add_mod _ _).symm, Nat.mod_lt _ (toNat_pos_of_ne_zero hdivisor)⟩
  · exact ⟨_, exec_rem_of_eq_zero hzero, faultTaken_raiseFault s _⟩

/-! ### AND, OR, XOR and NOT (spec/41_alu_register.md R126 to R129) -/

/-- Settles O28: the words written are the bitwise operations', read bit by bit. -/
theorem bitwiseResults : Obligations.BitwiseResults :=
  fun s _ rs1 rs2 =>
    ⟨decode_dss .and rfl rfl, decode_dss .or rfl rfl, decode_dss .xor rfl rfl,
      s.reg rs1 &&& s.reg rs2, s.reg rs1 ||| s.reg rs2, s.reg rs1 ^^^ s.reg rs2,
      fun _ _ => ⟨BitVec.getLsbD_and, BitVec.getLsbD_or, BitVec.getLsbD_xor⟩,
      writeResult_registerWritten rfl, writeResult_registerWritten rfl, writeResult_registerWritten rfl⟩

/-- Settles O29: the exclusive or with all ones is the complement, and f3 is checked like any register. -/
theorem notComplementsFirstSource : Obligations.NotComplementsFirstSource :=
  fun _ rd rs1 _ =>
    ⟨decode_dss .not rfl rfl, fun _ => decode_dss_illegalThird (op := .not) rfl rd rs1,
      writeResult_registerWritten BitVec.xor_allOnes⟩

/-! ### SLL, SRL and SRA (spec/41_alu_register.md R130 to R132) -/

/-- Settles O30: the cut of the amount to 32 changes no result. -/
theorem logicalShiftsUseFullAmount : Obligations.LogicalShiftsUseFullAmount :=
  fun _ _ _ _ =>
    ⟨decode_dss .sll rfl rfl, decode_dss .srl rfl rfl,
      writeResult_registerWritten (Laws.shiftLeft_eq _ _), writeResult_registerWritten (Laws.shiftRight_eq _ _)⟩

/-- `sra(a, k)` with the amount uncut, by the sign of `a` and then by `SRA_MODE`. -/
theorem shiftRightArith_eq (mode : SraMode) (a : Word) (k : Nat) :
    shiftRightArith mode a k =
      if a.toNat < 2 ^ 31 then u32 (a.toNat / 2 ^ k)
      else match mode with
        | .magnitude => u32OfInt (-(((2 ^ 32 - a.toNat) / 2 ^ k : Nat) : Int))
        | .floor => u32OfInt (a.toInt.fdiv (2 ^ k)) := by
  split
  · next hsmall => exact Laws.shiftRightArith_nonneg mode a k (BitVec.msb_eq_false_iff_two_mul_lt.mpr (by omega))
  · next hlarge =>
    have hmsb : a.msb = true := BitVec.msb_eq_true_iff_two_mul_ge.mpr (by omega)
    cases mode with
    | magnitude => exact Laws.shiftRightArith_magnitude a k hmsb
    | floor => simpa [Laws.signed32_eq_toInt] using Laws.shiftRightArith_floor a k hmsb

/-- Settles O31, with the amount in `x[rs2]`. -/
theorem arithmeticShiftFollowsItsMode : Obligations.ArithmeticShiftFollowsItsMode :=
  fun _ _ _ _ => ⟨decode_dss .sra rfl rfl, writeResult_registerWritten (shiftRightArith_eq _ _ _)⟩

/-! ### SLT, SLTS and SEQZ (spec/41_alu_register.md R133 to R135) -/

theorem truthWord_decide (p : Prop) [Decidable p] : truthWord (decide p) = if p then 1#32 else 0#32 := by
  simp [truthWord]

theorem truthWord_ltSigned (a b : Word) : truthWord (ltSigned a b) = if a.toInt < b.toInt then 1#32 else 0#32 := by
  rw [ltSigned, truthWord_decide, Laws.signed32_eq_toInt, Laws.signed32_eq_toInt]

/-- Settles O32: the comparisons read their operands as numbers below 2^32 and as two's complement. -/
theorem compareRegistersResults : Obligations.CompareRegistersResults :=
  fun _ _ _ _ =>
    ⟨decode_dss .slt rfl rfl, decode_dss .slts rfl rfl,
      writeResult_registerWritten (truthWord_decide _), writeResult_registerWritten (truthWord_ltSigned _ _)⟩

/-- Settles O33: the source field is checked on all its 16 bits. -/
theorem seqzTestsForZero : Obligations.SeqzTestsForZero :=
  fun _ rd _ =>
    ⟨decode_ds .seqz rfl rfl, fun _ => decode_ds_illegalSecond (op := .seqz) rfl rd,
      writeResult_registerWritten (truthWord_decide _)⟩

end Sys2Proof.Machine
end

section
/-!
SUPPORT. The immediate ALU instructions, LUI and LLI (spec/42_alu_immediate.md): the words that spell them, the
immediates as 32-bit words, and the halves of a word.
-/

namespace Sys2Proof

open Machine

/-! ### Words with an immediate that decode under the default map -/

/-- A word of shape DSI, whose third field is the 8-bit immediate. -/
theorem decode_dsi (op : Mnemonic) {i : Instr} {f1 f2 : Reg} {imm : BitVec 8}
    (hraw : i.raw = ⟨op, f1, f2, imm.toNat⟩) (hshape : op.shape = .dsi) :
    decode OpcodeMap.default (wordOfThree op.defaultByte (regBits f1) (regBits f2) imm) = .ok i := by
  apply decode_default_of_encode
  rw [wordOfThree_eq, encode, encodeRaw, hraw, byteOf_default, RawInstr.fieldBits, hshape]
  simp only [BitVec.ofNat_toNat, BitVec.setWidth_eq, regBits]

/-- A word of shape DI, whose second field is the 16-bit immediate. -/
theorem decode_di (op : Mnemonic) {i : Instr} {f1 : Reg} {imm : BitVec 16}
    (hraw : i.raw = ⟨op, f1, imm.toNat, 0⟩) (hshape : op.shape = .di) :
    decode OpcodeMap.default (wordOfTwo op.defaultByte (regBits f1) imm) = .ok i := by
  apply decode_default_of_encode
  rw [wordOfTwo_eq, encode, encodeRaw, hraw, byteOf_default, RawInstr.fieldBits, hshape]
  simp only [BitVec.ofNat_toNat, BitVec.setWidth_eq, regBits]

end Sys2Proof

namespace Sys2Proof.Machine

/-! ### Immediates as words (spec/00_scope.md R10) -/

/-- The zero-extended immediate is the immediate under 24 zeros. -/
theorem u32_zext (imm : BitVec 8) : u32 (zext imm) = 0#24 ++ imm :=
  (BitVec.ofNat_toNat 32 imm).trans (BitVec.setWidth_eq_append (by decide))

theorem u32_zext_toNat (imm : BitVec 8) : (u32 (zext imm)).toNat = imm.toNat :=
  Nat.mod_eq_of_lt (Nat.lt_trans imm.isLt (by decide))

/-- `sext_8` is the library's sign extension, read as a number. -/
theorem signExtend_toNat (imm : BitVec 8) : (imm.signExtend 32).toNat = sext imm := by
  rw [BitVec.toNat_signExtend, BitVec.toNat_setWidth_of_le (by decide), Laws.sext_eq]

theorem u32_sext (imm : BitVec 8) : u32 (sext imm) = imm.signExtend 32 := by
  rw [← signExtend_toNat, u32, BitVec.ofNat_toNat, BitVec.setWidth_eq]

theorem u32_sext_toInt (imm : BitVec 8) : (u32 (sext imm)).toInt = imm.toInt := by
  rw [u32_sext, BitVec.toInt_signExtend_of_le (by decide)]

/-! ### ADDI (spec/42_alu_immediate.md R151) -/

theorem addWrap_sext (a : Word) (imm : BitVec 8) : addWrap a (sext imm) = a + imm.signExtend 32 := by
  apply BitVec.eq_of_toNat_eq
  rw [BitVec.toNat_add, signExtend_toNat, addWrap, BitVec.toNat_ofNat]

/-- Settles O34: `addWrap` of the sign-extended pattern is the sum of the two words. -/
theorem addiSignExtendsImmediate : Obligations.AddiSignExtendsImmediate :=
  fun _ _ _ _ => ⟨decode_dsi .addi rfl rfl, writeResult_registerWritten (addWrap_sext _ _)⟩

/-! ### ANDI, ORI and XORI (spec/42_alu_immediate.md R152 to R154) -/

/-- Settles O35: the second operand of each is the zero-extended immediate. -/
theorem bitwiseImmediateResults : Obligations.BitwiseImmediateResults :=
  fun s _ rs1 imm =>
    ⟨decode_dsi .andi rfl rfl, decode_dsi .ori rfl rfl, decode_dsi .xori rfl rfl,
      writeResult_registerWritten (congrArg (s.reg rs1 &&& ·) (u32_zext imm)),
      writeResult_registerWritten (congrArg (s.reg rs1 ||| ·) (u32_zext imm)),
      writeResult_registerWritten (congrArg (s.reg rs1 ^^^ ·) (u32_zext imm))⟩

/-! ### SLLI, SRLI and SRAI (spec/42_alu_immediate.md R155 to R157) -/

/-- Settles O36: as O30, with the amount in the immediate. -/
theorem logicalShiftImmediateResults : Obligations.LogicalShiftImmediateResults :=
  fun _ _ _ _ =>
    ⟨decode_dsi .slli rfl rfl, decode_dsi .srli rfl rfl,
      writeResult_registerWritten (Laws.shiftLeft_eq _ _), writeResult_registerWritten (Laws.shiftRight_eq _ _)⟩

/-- Settles O37: as O31, with the amount in the immediate. -/
theorem arithmeticShiftImmediateFollowsItsMode : Obligations.ArithmeticShiftImmediateFollowsItsMode :=
  fun _ _ _ _ => ⟨decode_dsi .srai rfl rfl, writeResult_registerWritten (shiftRightArith_eq _ _ _)⟩

/-! ### SLTI and SLTSI (spec/42_alu_immediate.md R158, R159) -/

theorem truthWord_ltUnsigned_zext (a : Word) (imm : BitVec 8) :
    truthWord (ltUnsigned a (u32 (zext imm))) = if a.toNat < imm.toNat then 1#32 else 0#32 := by
  rw [ltUnsigned, truthWord_decide, u32_zext_toNat]

theorem truthWord_ltSigned_sext (a : Word) (imm : BitVec 8) :
    truthWord (ltSigned a (u32 (sext imm))) = if a.toInt < imm.toInt then 1#32 else 0#32 := by
  rw [truthWord_ltSigned, u32_sext_toInt]

/-- Settles O38: extension to 32 bits keeps the number each comparison reads in the immediate. -/
theorem compareImmediateResults : Obligations.CompareImmediateResults :=
  fun _ _ _ _ =>
    ⟨decode_dsi .slti rfl rfl, decode_dsi .sltsi rfl rfl,
      writeResult_registerWritten (truthWord_ltUnsigned_zext _ _),
      writeResult_registerWritten (truthWord_ltSigned_sext _ _)⟩

/-! ### LUI and LLI (spec/42_alu_immediate.md R160, R161) -/

/-- Two halves side by side, as a number. -/
theorem append_halves_toNat (high low : BitVec 16) :
    (high ++ low : Word).toNat = high.toNat * 2 ^ 16 + low.toNat := by
  rw [BitVec.toNat_append, ← Nat.shiftLeft_add_eq_or_of_lt low.isLt, Nat.shiftLeft_eq]

theorem lowHalf_toNat (v : Word) : (v.extractLsb 15 0).toNat = v.toNat % 2 ^ 16 :=
  BitVec.extractLsb_toNat 15 0 v

theorem highHalf_toNat (v : Word) : (v.extractLsb 31 16).toNat = v.toNat / 2 ^ 16 := by
  have hv := v.isLt
  rw [BitVec.extractLsb_toNat, Nat.shiftRight_eq_div_pow]
  omega

theorem withUpperHalf_eq_append (old : Word) (imm : BitVec 16) :
    withUpperHalf old imm = imm ++ old.extractLsb 15 0 := by
  apply BitVec.eq_of_toNat_eq
  have himm := imm.isLt
  rw [append_halves_toNat, lowHalf_toNat, withUpperHalf, Laws.zext_eq, BitVec.toNat_ofNat]
  omega

theorem withLowerHalf_eq_append (old : Word) (imm : BitVec 16) :
    withLowerHalf old imm = old.extractLsb 31 16 ++ imm := by
  apply BitVec.eq_of_toNat_eq
  have hold := old.isLt
  have himm := imm.isLt
  rw [append_halves_toNat, highHalf_toNat, withLowerHalf, Laws.zext_eq, BitVec.toNat_ofNat]
  omega

/-- Settles O39: the number each writes is the immediate beside the half of rd it keeps. -/
theorem upperAndLowerImmediateKeepTheOtherHalf : Obligations.UpperAndLowerImmediateKeepTheOtherHalf :=
  fun _ _ _ =>
    ⟨decode_di .lui rfl rfl, decode_di .lli rfl rfl,
      writeResult_registerWritten (withUpperHalf_eq_append _ _),
      writeResult_registerWritten (withLowerHalf_eq_append _ _)⟩

end Sys2Proof.Machine
end

section
/-!
SUPPORT. The loads and stores (spec/43_load_store.md): the effective address as a sum, the one cell a store
writes, and both ends of an access of any width. Each instruction is then the access of its width.
-/

namespace Sys2Proof.Machine

/-! ### Effective addresses as sums (spec/43_load_store.md R171) -/

section Addresses
variable (s : State) (base : Reg) (imm : BitVec 8)

theorem byteAddress_eq : byteAddress s base imm = (s.reg base).toNat + imm.toNat := rfl

theorem wordAddress_eq : wordAddress s base imm = (s.reg base).toNat + (imm.signExtend 32).toNat := by
  rw [wordAddress, signExtend_toNat]

/-- LH and LW, SH and SW share one address. -/
theorem addressOf_of_ne_byte {width : Width} (h : width ≠ .byte) :
    addressOf width s base imm = wordAddress s base imm := by
  cases width with
  | byte => exact absurd rfl h
  | half | word => rfl

theorem wordAddress_of_negative (h : 0x80 ≤ imm.toNat) :
    wordAddress s base imm = (s.reg base).toNat + (2 ^ 32 - 2 ^ 8 + imm.toNat) := by
  rw [wordAddress, Laws.sext8_negative imm h]

theorem wordAddress_ge_of_negative (h : 0x80 ≤ imm.toNat) : 2 ^ 32 - 128 ≤ wordAddress s base imm := by
  rw [wordAddress_of_negative s base imm h]
  omega

end Addresses

/-! ### The two ends of an access (spec/43_load_store.md R178) -/

theorem cellWritten_commit {s : State} (hwf : Memory.wf s.dmem = true) (a : Nat) (width : Width) (v : Word) :
    CellWritten s (commit s ⟨none, some (a, width, v), none⟩) a (width.mask v) where
  cell := by rw [cell_commit_some, cell_memWrite s a a width v hwf, if_pos rfl]
  otherCells b hb := by rw [cell_commit_some, cell_memWrite_other s a b width v hb]
  registers r := reg_commit_none s r _ none
  pc := rfl
  retired := rfl
  control := sameControl_commit s _

/-- In range a load writes what it reads to `rd`, and out of range it faults. -/
theorem exec_loadOf_ends (s : State) (width : Width) (rd base : Reg) (imm : BitVec 8) :
    (addressOf width s base imm < s.cfg.memSize → ∃ t, exec (loadOf width rd base imm) s = .next t ∧
      RegisterWritten s t rd (memRead s (addressOf width s base imm) width) (s.pc + 4)) ∧
    (s.cfg.memSize ≤ addressOf width s base imm → ∃ t, exec (loadOf width rd base imm) s = .next t ∧
      FaultTaken s t .memRange (addressOf width s base imm)) :=
  ⟨fun hin => ⟨_, exec_loadOf_inRange hin, registerWritten_commit s rd _ none⟩,
    fun hout => (outOfRangeAccessFaults s width rd base imm hout).1⟩

/-- In range a store writes its value, masked, to one cell, and out of range it faults. -/
theorem exec_storeOf_ends {s : State} (hwf : Memory.wf s.dmem = true) (width : Width) (rs2 base : Reg)
    (imm : BitVec 8) :
    (addressOf width s base imm < s.cfg.memSize → ∃ t, exec (storeOf width rs2 base imm) s = .next t ∧
      CellWritten s t (addressOf width s base imm) (width.mask (s.reg rs2))) ∧
    (s.cfg.memSize ≤ addressOf width s base imm → ∃ t, exec (storeOf width rs2 base imm) s = .next t ∧
      FaultTaken s t .memRange (addressOf width s base imm)) :=
  ⟨fun hin => ⟨_, exec_storeOf_inRange hin, cellWritten_commit hwf _ width _⟩,
    fun hout => (outOfRangeAccessFaults s width rs2 base imm hout).2⟩

/-! ### LB, LH and LW (spec/43_load_store.md R172 to R174) -/

/-- Settles O40: LB is the load of a byte, and `memRead` masks the cell to 8 bits. -/
theorem lbLoadsZeroExtendedByte : Obligations.LbLoadsZeroExtendedByte :=
  fun s rd rs1 imm => ⟨decode_dsi .lb rfl rfl, byteAddress_eq s rs1 imm, exec_loadOf_ends s .byte rd rs1 imm⟩

/-- Settles O41: LH is the load of a half word. -/
theorem lhLoadsZeroExtendedHalf : Obligations.LhLoadsZeroExtendedHalf :=
  fun s rd rs1 imm => ⟨decode_dsi .lh rfl rfl, wordAddress_eq s rs1 imm, exec_loadOf_ends s .half rd rs1 imm⟩

/-- Settles O42: LW is the load of a word. -/
theorem lwLoadsWholeCell : Obligations.LwLoadsWholeCell :=
  fun s rd rs1 imm => ⟨decode_dsi .lw rfl rfl, wordAddress_eq s rs1 imm, exec_loadOf_ends s .word rd rs1 imm⟩

/-! ### SB, SH and SW (spec/43_load_store.md R175 to R177) -/

/-- Settles O43: SB is the store of a byte. -/
theorem sbReplacesCellByByte : Obligations.SbReplacesCellByByte :=
  fun s rs2 rs1 imm hwf =>
    ⟨decode_dsi .sb rfl rfl, byteAddress_eq s rs1 imm, exec_storeOf_ends hwf .byte rs2 rs1 imm⟩

/-- Settles O44: SH is the store of a half word. -/
theorem shReplacesCellByHalf : Obligations.ShReplacesCellByHalf :=
  fun s rs2 rs1 imm hwf =>
    ⟨decode_dsi .sh rfl rfl, wordAddress_eq s rs1 imm, exec_storeOf_ends hwf .half rs2 rs1 imm⟩

/-- Settles O45: SW is the store of a word. -/
theorem swReplacesCell : Obligations.SwReplacesCell :=
  fun s rs2 rs1 imm hwf =>
    ⟨decode_dsi .sw rfl rfl, wordAddress_eq s rs1 imm, exec_storeOf_ends hwf .word rs2 rs1 imm⟩

/-! ### Negative offsets (spec/43_load_store.md R171) -/

/-- Settles O47: no base brings a negative offset below 2^32 - 128, so the access is out of range. -/
theorem negativeOffsetsNeverReachMemory : Obligations.NegativeOffsetsNeverReachMemory := by
  refine fun s r base imm => ⟨byteAddress_eq s base imm, wordAddress_eq s base imm, wordAddress_eq s base imm,
    fun width hwidth hnegative => ?_⟩
  have haddress := addressOf_of_ne_byte s base imm hwidth
  have hlarge : 2 ^ 32 - 128 ≤ addressOf width s base imm :=
    haddress ▸ wordAddress_ge_of_negative s base imm hnegative
  exact ⟨haddress.trans (wordAddress_of_negative s base imm hnegative), hlarge,
    fun hsize => outOfRangeAccessFaults s width r base imm (hsize.trans hlarge)⟩

end Sys2Proof.Machine
end

section
/-!
SUPPORT. Branches and jumps (spec/44_control_transfer.md): the word that spells J, the end in a move of the pc,
the end in a link and a jump, and the number JALR jumps from.
-/

namespace Sys2Proof

open Machine

/-- A word of shape I is its opcode byte and its 24-bit immediate. -/
theorem decode_i (op : Mnemonic) {i : Instr} {imm : BitVec 24} (hraw : i.raw = ⟨op, imm.toNat, 0, 0⟩)
    (hshape : op.shape = .i) : decode OpcodeMap.default (wordOfOne op.defaultByte imm) = .ok i := by
  apply decode_default_of_encode
  rw [wordOfOne, encode, encodeRaw, hraw, byteOf_default, RawInstr.fieldBits, hshape]
  simp only [BitVec.ofNat_toNat, BitVec.setWidth_eq]

end Sys2Proof

namespace Sys2Proof.Machine

/-! ### The end in a move of the pc (spec/44_control_transfer.md R190) -/

theorem pcMoved_commit (s : State) (jump : Option Int) :
    PcMoved s (commit s ⟨none, none, jump⟩) (nextPc s.pc jump) where
  registers r := reg_commit_none s r none jump
  cells a := cell_commit_none s a none jump
  pc := rfl
  retired := rfl
  control := sameControl_commit s _

/-- A branch goes to its target where the condition its comparison decides holds, and to the next word elsewhere. -/
theorem branch_pcMoved (s : State) {taken : Bool} {p : Prop} [Decidable p] (imm : BitVec 8)
    (htaken : taken = true ↔ p) :
    ∃ t, branch s taken imm = .next t ∧ PcMoved s t (if p then imm.toNat else s.pc + 4) := by
  refine ⟨_, branch_eq s taken imm, ?_⟩
  have hmoved := pcMoved_commit s (if taken then some ((zext imm : Int) - 4) else none)
  rw [nextPc_branch] at hmoved
  simpa only [htaken] using hmoved

/-! ### The branches (spec/44_control_transfer.md R191 to R196) -/

theorem ltSigned_iff (a b : Word) : ltSigned a b = true ↔ a.toInt < b.toInt := by
  rw [ltSigned, decide_eq_true_iff, Laws.signed32_eq_toInt, Laws.signed32_eq_toInt]

theorem leSigned_iff (a b : Word) : leSigned a b = true ↔ a.toInt ≤ b.toInt := by
  rw [leSigned, decide_eq_true_iff, Laws.signed32_eq_toInt, Laws.signed32_eq_toInt]

/-- Settles O49: BNEQ branches on the negated condition, so its two destinations stand the other way round. -/
theorem equalityBranches : Obligations.EqualityBranches := by
  intro s rs1 rs2 imm
  obtain ⟨t, hexec, hmoved⟩ :=
    branch_pcMoved s imm (decide_eq_true_iff (p := s.reg rs1 ≠ s.reg rs2))
  rw [ite_not] at hmoved
  exact ⟨decode_dsi .beq rfl rfl, decode_dsi .bneq rfl rfl,
    branch_pcMoved s imm decide_eq_true_iff, t, hexec, hmoved⟩

/-- Settles O50: both comparisons read their operands as numbers below 2^32. -/
theorem unsignedOrderBranches : Obligations.UnsignedOrderBranches :=
  fun s _ _ imm =>
    ⟨decode_dsi .blt rfl rfl, decode_dsi .ble rfl rfl,
      branch_pcMoved s imm decide_eq_true_iff, branch_pcMoved s imm decide_eq_true_iff⟩

/-- Settles O51: `signed32` is the two's-complement reading. -/
theorem signedLessBranch : Obligations.SignedLessBranch :=
  fun s _ _ imm => ⟨decode_dsi .blts rfl rfl, branch_pcMoved s imm (ltSigned_iff _ _)⟩

/-- Under STRICT, BLTES is BLTS (spec/44_control_transfer.md R196). -/
theorem exec_bltes_strict {s : State} (hmode : s.cfg.bltesMode = .strict) (rs1 rs2 : Reg) (imm : BitVec 8) :
    exec (.bltes rs1 rs2 imm) s = branch s (ltSigned (s.reg rs1) (s.reg rs2)) imm := by
  rw [exec, execBltes, hmode, bltesTaken]

theorem exec_bltes_lessEqual {s : State} (hmode : s.cfg.bltesMode = .lessEqual) (rs1 rs2 : Reg)
    (imm : BitVec 8) :
    exec (.bltes rs1 rs2 imm) s = branch s (leSigned (s.reg rs1) (s.reg rs2)) imm := by
  rw [exec, execBltes, hmode, bltesTaken]

/-- Settles O52, by the mode. -/
theorem signedLessEqualBranchFollowsItsMode : Obligations.SignedLessEqualBranchFollowsItsMode := by
  refine fun s rs1 rs2 imm => ⟨decode_dsi .bltes rfl rfl, fun hstrict => ?_, fun hlessEqual => ?_⟩
  · rw [exec_bltes_strict hstrict]
    exact ⟨rfl, branch_pcMoved s imm (ltSigned_iff _ _)⟩
  · rw [exec_bltes_lessEqual hlessEqual]
    exact branch_pcMoved s imm (leSigned_iff _ _)

/-! ### The jumps (spec/44_control_transfer.md R197 to R199) -/

/-- An instruction that links `v` in `rd` and jumps to the landing address `next`. -/
theorem complete_registerWritten {s : State} {rd : Reg} {v : Word} {jump : Option Int} {next : Nat}
    (hnext : nextPc s.pc jump = next) :
    ∃ t, complete s (.ok { regw := some (rd, v), jump := jump }) = .next t ∧ RegisterWritten s t rd v next :=
  ⟨_, complete_ok s _, hnext ▸ registerWritten_commit s rd v jump⟩

/-- The number JALR jumps from is the link only where the link is written first, and to the source register. -/
theorem jalrSource_toNat (s : State) (rd rs1 : Reg) :
    (jalrSource s rd rs1).toNat =
      if s.cfg.jalrLinkFirst = true ∧ rd = rs1 ∧ rd ≠ 0 then s.pc % 2 ^ 32 else (s.reg rs1).toNat := by
  unfold jalrSource
  cases s.cfg.jalrLinkFirst with
  | false => simp
  | true =>
    rw [if_pos rfl, reg_setReg]
    by_cases hzero : rs1 = 0
    · subst hzero
      simp
    · by_cases hsame : rd = rs1
      · subst hsame
        simp [hzero]
      · simp [hzero, hsame, Ne.symm hsame]

/-- Settles O53: JALR's sum is not lowered by 4 as other targets are, so it lands 4 past it. -/
theorem jalrLinksAndLandsFourPastTarget : Obligations.JalrLinksAndLandsFourPastTarget := by
  intro s rd rs1 imm
  refine ⟨decode_dsi .jalr rfl rfl, complete_registerWritten ?_⟩
  rw [nextPc_natCast, jalrSource_toNat, Laws.zext_eq]

/-- Settles O54: the target is lowered by the 4 that the commit adds, so it is the landing address. -/
theorem jalLinksAndJumps : Obligations.JalLinksAndJumps :=
  fun s _ imm => ⟨decode_di .jal rfl rfl, complete_registerWritten (nextPc_target s.pc imm.toNat)⟩

/-- Settles O55: as O54, without a link. -/
theorem jumpLandsAtTarget : Obligations.JumpLandsAtTarget :=
  fun s imm =>
    ⟨decode_i .j rfl rfl, _, complete_ok s _, nextPc_target s.pc imm.toNat ▸ pcMoved_commit s _⟩

/-! ### Call and return (spec/44_control_transfer.md R200) -/

/-- A write to r0 is discarded, so all that is left of the instruction is the move of the pc. -/
theorem RegisterWritten.pcMoved {s t : State} {v : Word} {next : Nat} (h : RegisterWritten s t 0 v next) :
    PcMoved s t next where
  registers r := by
    by_cases hr : r = 0
    · rw [hr, reg_zero, reg_zero]
    · exact h.others r hr
  cells := h.cells
  pc := h.pc
  retired := h.retired
  control := h.control

/-- Settles O56: below 2^32 the link is the JAL's pc uncut, and JALR lands 4 past it; with rd = r0 the link order
does not matter. -/
theorem returnResumesAfterCall : Obligations.ReturnResumesAfterCall := by
  intro s t u link target hlink hpc hcall hkept
  obtain ⟨-, t', hcall', hlinked⟩ := jalLinksAndJumps s link target
  obtain rfl : t' = t := Host.Outcome.next.inj (hcall'.symm.trans hcall)
  obtain ⟨-, v, hreturn, hlanded⟩ := jalrLinksAndLandsFourPastTarget u 0 link 0#8
  have hsource : (u.reg link).toNat = s.pc := by
    rw [hkept, hlinked.dest hlink, BitVec.toNat_ofNat, Nat.mod_eq_of_lt hpc]
  rw [if_neg fun h => h.2.2 rfl, hsource] at hlanded
  exact ⟨v, hreturn, hlanded.pcMoved⟩

end Sys2Proof.Machine
end

section
/-!
SUPPORT. The causes of a fault (spec/60_exceptions.md R211): each condition raises its cause and its value, a step
that meets none of them does not end FAULTED, and no two causes share a code.
-/

namespace Sys2Proof

/-! ### The classifier and the lookup behind it (spec/30_encoding.md R66) -/

/-- A known byte is a mnemonic's or an added one, and its shape is that assignment's. -/
theorem OpcodeMap.slot_of_classify_some {m : OpcodeMap} {b : Byte} {sh : Shape} (h : m.classify b = some sh) :
    (∃ op, m.slot b = .core op ∧ op.shape = sh) ∨ m.slot b = .extension sh := by
  unfold OpcodeMap.classify at h
  cases hslot : m.slot b with
  | unassigned =>
    rw [hslot] at h
    cases h
  | core op =>
    rw [hslot] at h
    exact .inl ⟨op, rfl, Option.some.inj h⟩
  | extension sh' =>
    rw [hslot] at h
    exact .inr (congrArg _ (Option.some.inj h))

/-- A map without added bytes has no instruction without an executor. -/
theorem OpcodeMap.slot_ne_extension {m : OpcodeMap} (h : m.extensions = []) (b : Byte) (sh : Shape) :
    m.slot b ≠ .extension sh := by
  unfold OpcodeMap.slot
  rw [h]
  split <;> nofun

/-- Fewer than four bytes hold no word (spec/30_encoding.md R60). -/
theorem decodeBytes_of_length_lt (m : OpcodeMap) {bytes : List Byte} (h : bytes.length < 4) :
    decodeBytes m bytes = .error .truncatedWord := by
  unfold decodeBytes
  split
  · simp only [List.length_cons] at h
    omega
  · rfl

end Sys2Proof

namespace Sys2Proof.Machine

/-! ### The table of causes (spec/60_exceptions.md R211) -/

/-- The condition under which a step raises the cause with the value `n` in FAULT_INFO. -/
def FaultCondition (s : State) : FaultCause → Nat → Prop
  | .noFault, _ => False
  | .illegalOpcode, n =>
    Fetches s ∧ s.cfg.opcodeMap.classify (opcodeByte (wordAtPc s)) = none ∧ n = (opcodeByte (wordAtPc s)).toNat
  | .illegalRegister, n =>
    Fetches s ∧ ∃ sh j v, s.cfg.opcodeMap.classify (opcodeByte (wordAtPc s)) = some sh ∧
      firstIllegalRegister sh (wordAtPc s) = some (j, v) ∧ n = j * 2 ^ 16 + v
  | .divideByZero, n =>
    Fetches s ∧ n = 0 ∧ ∃ rd rs1 rs2, s.reg rs2 = 0#32 ∧
      (decode s.cfg.opcodeMap (wordAtPc s) = .ok (.div rd rs1 rs2) ∨
        decode s.cfg.opcodeMap (wordAtPc s) = .ok (.rem rd rs1 rs2))
  | .memRange, n =>
    Fetches s ∧ ∃ width r base imm, n = addressOf width s base imm ∧ s.cfg.memSize ≤ n ∧
      (decode s.cfg.opcodeMap (wordAtPc s) = .ok (loadOf width r base imm) ∨
        decode s.cfg.opcodeMap (wordAtPc s) = .ok (storeOf width r base imm))
  | .misalignedFetch, n =>
    s.status = .running ∧ s.pc < s.cfg.imemLen ∧ (∀ cap, s.cfg.maxSteps = some cap → s.retired < cap) ∧
      s.pc % 4 ≠ 0 ∧ n = s.pc
  | .unimplemented, n =>
    Fetches s ∧ ∃ sh, s.cfg.opcodeMap.slot (opcodeByte (wordAtPc s)) = .extension sh ∧
      firstIllegalRegister sh (wordAtPc s) = none ∧ n = (opcodeByte (wordAtPc s)).toNat

/-- The cause of a code. -/
def FaultCause.ofCode : Nat → FaultCause
  | 1 => .illegalOpcode
  | 2 => .illegalRegister
  | 3 => .divideByZero
  | 4 => .memRange
  | 5 => .misalignedFetch
  | 6 => .unimplemented
  | _ => .noFault

theorem FaultCause.ofCode_code (c : FaultCause) : ofCode c.code = c := by
  cases c <;> rfl

theorem FaultCause.code_injective : Function.Injective FaultCause.code :=
  Function.LeftInverse.injective ofCode_code

theorem FaultTaken.endsFaulted {s t : State} {c : FaultCause} {n : Nat} (h : FaultTaken s t c n) :
    EndsFaulted t c.code n :=
  ⟨h.status, congrArg FaultCause.code h.faultCause, h.faultInfo⟩

/-! ### Each condition raises its cause -/

/-- The register checks are the same for a mnemonic's byte and for an added one. -/
theorem illegalRegister_of_classify {s : State} {sh : Shape} {j v : Nat} (hfetches : Fetches s)
    (hclass : s.cfg.opcodeMap.classify (opcodeByte (wordAtPc s)) = some sh)
    (hfirst : firstIllegalRegister sh (wordAtPc s) = some (j, v)) :
    ∃ t, step s = .next t ∧ FaultTaken s t .illegalRegister (j * 2 ^ 16 + v) := by
  rcases OpcodeMap.slot_of_classify_some hclass with ⟨op, hslot, rfl⟩ | hslot
  · exact illegalRegisterFieldsFault.1 s op j v hfetches hslot hfirst
  · have hfaults := opcodeWithoutExecutorFaults s sh hfetches hslot
    rwa [hfirst] at hfaults

theorem faultTaken_of_condition {s : State} {c : FaultCause} {n : Nat} (h : FaultCondition s c n) :
    ∃ t, step s = .next t ∧ FaultTaken s t c n := by
  cases c with
  | noFault => exact h.elim
  | illegalOpcode =>
    obtain ⟨hfetches, hclass, rfl⟩ := h
    exact unassignedOpcodeFaults s hfetches hclass
  | illegalRegister =>
    obtain ⟨hfetches, sh, j, v, hclass, hfirst, rfl⟩ := h
    exact illegalRegister_of_classify hfetches hclass hfirst
  | divideByZero =>
    obtain ⟨hfetches, rfl, rd, rs1, rs2, hzero, hdecode | hdecode⟩ := h
    · rw [stepRunsDecodedInstruction s _ hfetches hdecode]
      exact ⟨_, exec_div_of_eq_zero hzero, faultTaken_raiseFault s _⟩
    · rw [stepRunsDecodedInstruction s _ hfetches hdecode]
      exact ⟨_, exec_rem_of_eq_zero hzero, faultTaken_raiseFault s _⟩
  | memRange =>
    obtain ⟨hfetches, width, r, base, imm, rfl, hout, hdecode | hdecode⟩ := h
    · rw [stepRunsDecodedInstruction s _ hfetches hdecode]
      exact (outOfRangeAccessFaults s width r base imm hout).1
    · rw [stepRunsDecodedInstruction s _ hfetches hdecode]
      exact (outOfRangeAccessFaults s width r base imm hout).2
  | misalignedFetch =>
    obtain ⟨hrun, hpc, hcap, halign, rfl⟩ := h
    exact misalignedFetchFaults s hrun hpc hcap halign
  | unimplemented =>
    obtain ⟨hfetches, sh, hslot, hfirst, rfl⟩ := h
    have hfaults := opcodeWithoutExecutorFaults s sh hfetches hslot
    rwa [hfirst] at hfaults

/-! ### A fetching step meets a condition or completes (spec/40_execution_kernel.md R105, R106) -/

/-- What becomes of a state that fetches: a condition of the table holds, or an effect is committed. -/
inductive FetchEnd (s : State) : Prop where
  | faults {c : FaultCause} {n : Nat} (hcondition : FaultCondition s c n)
  | completes {e : Effect} (hstep : step s = .next (commit s e))

section Fetching
variable {s : State} (hfetches : Fetches s)
include hfetches

theorem fetchEnd_divide {rd rs1 rs2 : Reg}
    (hdecode : decode s.cfg.opcodeMap (wordAtPc s) = .ok (.div rd rs1 rs2) ∨
      decode s.cfg.opcodeMap (wordAtPc s) = .ok (.rem rd rs1 rs2)) : FetchEnd s := by
  by_cases hzero : s.reg rs2 = 0#32
  · exact .faults (c := .divideByZero) ⟨hfetches, rfl, rd, rs1, rs2, hzero, hdecode⟩
  · rcases hdecode with hdiv | hrem
    · exact .completes ((stepRunsDecodedInstruction s _ hfetches hdiv).trans (exec_div_of_ne_zero hzero))
    · exact .completes ((stepRunsDecodedInstruction s _ hfetches hrem).trans (exec_rem_of_ne_zero hzero))

theorem fetchEnd_access (width : Width) {r base : Reg} {imm : BitVec 8}
    (hdecode : decode s.cfg.opcodeMap (wordAtPc s) = .ok (loadOf width r base imm) ∨
      decode s.cfg.opcodeMap (wordAtPc s) = .ok (storeOf width r base imm)) : FetchEnd s := by
  rcases Nat.lt_or_ge (addressOf width s base imm) s.cfg.memSize with hin | hout
  · rcases hdecode with hload | hstore
    · exact .completes ((stepRunsDecodedInstruction s _ hfetches hload).trans (exec_loadOf_inRange hin))
    · exact .completes ((stepRunsDecodedInstruction s _ hfetches hstore).trans (exec_storeOf_inRange hin))
  · exact .faults (c := .memRange) ⟨hfetches, width, r, base, imm, rfl, hout, hdecode⟩

/-- Only DIV, REM, the loads and the stores can fault once they are decoded. -/
theorem fetchEnd_of_decode {i : Instr} (hdecode : decode s.cfg.opcodeMap (wordAtPc s) = .ok i) :
    FetchEnd s := by
  have hexec := stepRunsDecodedInstruction s i hfetches hdecode
  cases i with
  | add | mul | mulh | slt | slts | seqz | and | or | xor | not | sll | srl | sra
  | addi | slti | sltsi | lui | lli | andi | ori | xori | slli | srli | srai
  | beq | bneq | blt | ble | blts | bltes | jalr | jal | j => exact .completes (hexec.trans (complete_ok s _))
  | div => exact fetchEnd_divide hfetches (.inl hdecode)
  | rem => exact fetchEnd_divide hfetches (.inr hdecode)
  | lb => exact fetchEnd_access hfetches .byte (.inl hdecode)
  | lh => exact fetchEnd_access hfetches .half (.inl hdecode)
  | lw => exact fetchEnd_access hfetches .word (.inl hdecode)
  | sb => exact fetchEnd_access hfetches .byte (.inr hdecode)
  | sh => exact fetchEnd_access hfetches .half (.inr hdecode)
  | sw => exact fetchEnd_access hfetches .word (.inr hdecode)

/-- By what the opcode byte is assigned to, then by the first illegal register field. -/
theorem fetchEnd_of_fetches : FetchEnd s := by
  cases hslot : s.cfg.opcodeMap.slot (opcodeByte (wordAtPc s)) with
  | unassigned => exact .faults (c := .illegalOpcode) ⟨hfetches, by rw [OpcodeMap.classify, hslot], rfl⟩
  | core op =>
    cases hfirst : firstIllegalRegister op.shape (wordAtPc s) with
    | none =>
      obtain ⟨i, hdecode, _⟩ := illegalRegisterFieldsFault.2 _ _ op hslot hfirst
      exact fetchEnd_of_decode hfetches hdecode
    | some field =>
      exact .faults (c := .illegalRegister)
        ⟨hfetches, op.shape, field.1, field.2, by rw [OpcodeMap.classify, hslot], hfirst, rfl⟩
  | extension sh =>
    cases hfirst : firstIllegalRegister sh (wordAtPc s) with
    | none => exact .faults (c := .unimplemented) ⟨hfetches, sh, hslot, hfirst, rfl⟩
    | some field =>
      exact .faults (c := .illegalRegister)
        ⟨hfetches, sh, field.1, field.2, by rw [OpcodeMap.classify, hslot], hfirst, rfl⟩

end Fetching

/-! ### A step that ends FAULTED met a condition -/

/-- Where the stream ends inside the word at the pc, the step is refused (spec/20_memory.md R41). -/
theorem fetchDecode_truncated {s : State} (hrun : s.status = .running) (hpc : s.pc < s.cfg.imemLen)
    (hcap : capReached s = false) (halign : s.pc % 4 = 0) (hshort : s.cfg.imemLen < s.pc + 4) :
    fetchDecode s = .error (.refused .truncatedStream) := by
  simp [fetchDecode, hrun, pastEnd, Nat.not_le.mpr hpc, hcap, halign, rejectWord,
    decodeBytes_of_length_lt _ (length_fetchBytes_lt hshort)]

/-- Past the checks, a step that has a next state fetched a whole word. -/
theorem fetches_of_step {s t : State} (hstep : step s = .next t) (hpc : s.pc < s.cfg.imemLen)
    (hcap : capReached s = false) (halign : s.pc % 4 = 0) : Fetches s where
  running := running_of_step hstep
  inside := by
    by_contra hshort
    have hrefused := fetchDecode_truncated (running_of_step hstep) hpc hcap halign (Nat.lt_of_not_le hshort)
    cases (step_of_fetchDecode_error hrefused).symm.trans hstep
  belowCap := (capReached_false_iff s).mp hcap
  aligned := halign

/-- A commit keeps RUNNING, so a fetching step that ends FAULTED met a condition. -/
theorem FetchEnd.exists_condition {s t : State} (h : FetchEnd s) (hstep : step s = .next t)
    (hfaulted : t.status = .faulted) : ∃ c n, FaultCondition s c n := by
  cases h with
  | faults hcondition => exact ⟨_, _, hcondition⟩
  | completes hcommit =>
    cases hcommit.symm.trans hstep
    rw [commit_status, running_of_step hstep] at hfaulted
    cases hfaulted

/-- By the cases of `step_cases`: a halt does not set FAULTED, and past the checks the step fetches. -/
theorem exists_condition_of_step {s t : State} (hstep : step s = .next t) (hfaulted : t.status = .faulted) :
    ∃ c n, FaultCondition s c n := by
  rcases step_cases s with ⟨_, h⟩ | ⟨_, _, h⟩ | ⟨_, _, _, h⟩ | ⟨hrun, hpc, hcap, halign, _⟩ |
    ⟨_, hpc, hcap, halign, _⟩ | ⟨_, hpc, hcap, halign, _⟩
  · cases h.symm.trans hstep
  · cases h.symm.trans hstep
    cases hfaulted
  · cases h.symm.trans hstep
    cases hfaulted
  · exact ⟨.misalignedFetch, s.pc, hrun, hpc, (capReached_false_iff s).mp hcap, halign, rfl⟩
  · exact (fetchEnd_of_fetches (fetches_of_step hstep hpc hcap halign)).exists_condition hstep hfaulted
  · exact (fetchEnd_of_fetches (fetches_of_step hstep hpc hcap halign)).exists_condition hstep hfaulted

/-- The condition met raises its own cause and value, and the step has one next state: so the code and the
value found there are those of the condition. -/
theorem endsFaulted_iff {s t : State} (hstep : step s = .next t) (c : FaultCause) (n : Nat) :
    EndsFaulted t c.code n ↔ FaultCondition s c n := by
  constructor
  · intro hends
    obtain ⟨c', n', hcondition⟩ := exists_condition_of_step hstep hends.status
    obtain ⟨t', hstep', htaken⟩ := faultTaken_of_condition hcondition
    obtain rfl : t' = t := Host.Outcome.next.inj (hstep'.symm.trans hstep)
    obtain rfl : c' = c := FaultCause.code_injective (htaken.endsFaulted.faultCause.symm.trans hends.faultCause)
    obtain rfl : n' = n := htaken.faultInfo.symm.trans hends.faultInfo
    exact hcondition
  · intro hcondition
    obtain ⟨t', hstep', htaken⟩ := faultTaken_of_condition hcondition
    obtain rfl : t' = t := Host.Outcome.next.inj (hstep'.symm.trans hstep)
    exact htaken.endsFaulted

/-- Settles O60: the rows of the table are `FaultCondition`'s, and the last needs an added byte. -/
theorem faultCausesFollowTheirTable : Obligations.FaultCausesFollowTheirTable := by
  intro s t n hstep
  refine ⟨endsFaulted_iff hstep .illegalOpcode n, endsFaulted_iff hstep .illegalRegister n,
    endsFaulted_iff hstep .divideByZero n, endsFaulted_iff hstep .memRange n,
    endsFaulted_iff hstep .misalignedFetch n, endsFaulted_iff hstep .unimplemented n, fun hnone hends => ?_⟩
  obtain ⟨_, sh, hslot, _⟩ := (endsFaulted_iff hstep .unimplemented n).mp hends
  exact OpcodeMap.slot_ne_extension hnone _ sh hslot

end Sys2Proof.Machine
end
